-- ==== Sys2Proof/Config.lean ====
section
/-! DEFINITION. The implementation parameters of spec/00_scope.md R8 and their defaults.

`W` and `ADW` are widths, so they are the argument `g : Geometry` of the types below; `N`, `OPCODE_MAP` and
`INVALID_OPCODE_POLICY` are plain data (`Params`) that the state carries unchanged through a run. -/

namespace Sys2Proof

/-- `OPW`: the width of the opcode field, 3 at every parameter choice (R8). -/
abbrev opw : Nat := 3

/-- The widths of R8: `W` (WORD_WIDTH) and `ADW` (ADDR_WIDTH), with the legal values R8 and R10 ask for. -/
structure Geometry where
  W : Nat
  ADW : Nat
  adw_pos : 1 ≤ ADW
  fits : opw + ADW ≤ W
  deriving DecidableEq, Repr

/-- The default widths of R8: `W = 8`, `ADW = 5`. -/
abbrev Geometry.default : Geometry := { W := 8, ADW := 5, adw_pos := by decide, fits := by decide }

/-- `PCW = ADW + 1` (R8, 10_state.md R32). -/
abbrev Geometry.pcw (g : Geometry) : Nat := g.ADW + 1

/-- `INVALID_OPCODE_POLICY` (R8, 43_control.md R198). -/
inductive InvalidOpcodePolicy where
  | lenient
  | strict
  deriving DecidableEq, Repr

/-- `OPCODE_MAP` (R8): the code of each mnemonic. R8 allows any bijection onto 0..5, which `OpcodeMap.Bijective` states. -/
structure OpcodeMap where
  lda : Fin 6
  add : Fin 6
  sub : Fin 6
  jnz : Fin 6
  sta : Fin 6
  hlt : Fin 6
  deriving DecidableEq, Repr

/-- The default map: LDA 0, ADD 1, SUB 2, JNZ 3, STA 4, HLT 5 (R8, 30_encoding.md R93). -/
abbrev OpcodeMap.default : OpcodeMap := { lda := 0, add := 1, sub := 2, jnz := 3, sta := 4, hlt := 5 }

/-- Six pairwise different codes below 6: a bijection onto 0..5 (R8). -/
abbrev OpcodeMap.Bijective (m : OpcodeMap) : Prop := [m.lda, m.add, m.sub, m.jnz, m.sta, m.hlt].Nodup

/-- The parameters of R8 that are plain data: capacity `N`, the opcode map and the invalid-opcode policy. -/
structure Params where
  capacity : Nat
  opcodeMap : OpcodeMap
  policy : InvalidOpcodePolicy
  deriving DecidableEq, Repr

/-- The default instance of R8: `N = 20`, the default map, `LENIENT`. -/
abbrev Params.default : Params := { capacity := 20, opcodeMap := OpcodeMap.default, policy := .lenient }

/-- The legal values of R8: `1 <= N <= 2^ADW` and a bijective opcode map. -/
abbrev Params.Legal (g : Geometry) (p : Params) : Prop :=
  1 ≤ p.capacity ∧ p.capacity ≤ 2 ^ g.ADW ∧ p.opcodeMap.Bijective

/-- What `IR` holds after reset. The spec leaves it unspecified (10_state.md R46, 70_reset_and_hazards.md R243).
DESIGN CHOICE, log entry 2, unsafe: zero. -/
abbrev irAfterReset : Nat := 0

end Sys2Proof
end

