-- ==== Sys2Proof/Syntax.lean ====
section
/-! DEFINITION. The instructions: one constructor for each row of spec/opcode_table.json. -/

namespace Sys2Proof

/-- The instruction set (00_scope.md R2, 30_encoding.md R93) and the two invalid opcodes of R95. `a` is the operand of
R92, an unsigned absolute cell address. `HLT` and the invalid opcodes have no operand: their field is ignored (R97). -/
inductive Instr where
  | lda (a : Nat)
  | add (a : Nat)
  | sub (a : Nat)
  | jnz (a : Nat)
  | sta (a : Nat)
  | hlt
  | invalidOp6
  | invalidOp7
  deriving DecidableEq, Repr

/-- The value an instruction puts in its `addr` field: its operand, and 0 where it has none (30_encoding.md R97, R102). -/
def Instr.operand : Instr → Nat
  | .lda a => a
  | .add a => a
  | .sub a => a
  | .jnz a => a
  | .sta a => a
  | .hlt => 0
  | .invalidOp6 => 0
  | .invalidOp7 => 0

end Sys2Proof
end

