-- ==== Sys2Proof/WellFormed.lean ====
section
/-! DEFINITION. Which instructions an encoding can hold, and which the assembler can emit. -/

namespace Sys2Proof

/-- The operand fits the `addr` field: `0` to `2^ADW - 1` (30_encoding.md R98). -/
def Instr.wellFormed (g : Geometry) : Instr → Bool
  | .lda a => a < 2 ^ g.ADW
  | .add a => a < 2 ^ g.ADW
  | .sub a => a < 2 ^ g.ADW
  | .jnz a => a < 2 ^ g.ADW
  | .sta a => a < 2 ^ g.ADW
  | .hlt => true
  | .invalidOp6 => true
  | .invalidOp7 => true

/-- A valid symbolic instruction: "a mnemonic with an operand `0 <= a < N`, or `HLT` alone" (30_encoding.md R101). -/
def Instr.valid (n : Nat) : Instr → Bool
  | .lda a => a < n
  | .add a => a < n
  | .sub a => a < n
  | .jnz a => a < n
  | .sta a => a < n
  | .hlt => true
  | .invalidOp6 => false
  | .invalidOp7 => false

end Sys2Proof
end

