-- ==== Sys2Proof/Word.lean ====
section
/-! DEFINITION. The word types: a `W`-bit word, a `PCW`-bit address register, the 3-bit opcode field. -/

namespace Sys2Proof

/-- One memory word, also the width of `ACC` and `IR` (00_scope.md R8, 10_state.md R31, R43). -/
abbrev Word (g : Geometry) := BitVec g.W

/-- The width of `PC` and `FAULT_ADDR` (10_state.md R32, R40). -/
abbrev PcWord (g : Geometry) := BitVec g.pcw

/-- The value of an opcode field (30_encoding.md R91). -/
abbrev Opcode := BitVec opw

end Sys2Proof
end

