-- ==== Sys2Proof/Decode.lean ====
section
/-! DEFINITION. Decoding, total on every word (spec/30_encoding.md R94), and then the encoder (R102). -/

namespace Sys2Proof

/-- `word[W-1 : W-3]`, the opcode field (R91, R94). -/
def opField {g : Geometry} (w : Word g) : Opcode := w.extractLsb' (g.W - opw) opw

/-- `zext_PCW(word[ADW-1 : 0])`, the operand (R92, R94). -/
def operandField {g : Geometry} (w : Word g) : PcWord g := (w.extractLsb' 0 g.ADW).setWidth g.pcw

/-- The instruction of an opcode field and an operand (R93, R95): codes 6 and 7 are invalid under every map, and the six
codes below them are the map's. The last branch is `HLT`'s, the one code left of a bijective map (R8). -/
def decodeOp (m : OpcodeMap) (op : Opcode) (a : Nat) : Instr :=
  if op.toNat = 6 then .invalidOp6
  else if op.toNat = 7 then .invalidOp7
  else if op.toNat = m.lda.val then .lda a
  else if op.toNat = m.add.val then .add a
  else if op.toNat = m.sub.val then .sub a
  else if op.toNat = m.jnz.val then .jnz a
  else if op.toNat = m.sta.val then .sta a
  else .hlt

/-- Decode is total: "No word is undecodable" (R94). The unused bits `word[W-4:ADW]` have no effect (R96). -/
def decode {g : Geometry} (m : OpcodeMap) (w : Word g) : Instr := decodeOp m (opField w) (operandField w).toNat

/-- The code of an instruction under a map (R93); the invalid opcodes are 6 and 7 under every map (R95). -/
def codeOf (m : OpcodeMap) : Instr → Nat
  | .lda _ => m.lda.val
  | .add _ => m.add.val
  | .sub _ => m.sub.val
  | .jnz _ => m.jnz.val
  | .sta _ => m.sta.val
  | .hlt => m.hlt.val
  | .invalidOp6 => 6
  | .invalidOp7 => 7

/-- `encode(m, a) = { code(m)[2:0], zeros(W - 3 - ADW), a[ADW-1:0] }` (R102). R102 encodes the six mnemonics with operands
below `N`; that the invalid opcodes are laid out the same way with a zero field, and other operands in the same layout, so
that every instruction has a word, is DESIGN CHOICE, log entry 11. -/
def encode (g : Geometry) (m : OpcodeMap) (i : Instr) : Word g :=
  ((BitVec.ofNat opw (codeOf m i) ++ (0 : BitVec (g.W - opw - g.ADW))) ++ BitVec.ofNat g.ADW i.operand).setWidth g.W

/-- The instruction the decoder reads from a table word at the default parameters: one `W`-bit word is one instruction
(R90), so no other length is one. -/
def decodeTableWord (nbits w : Nat) : Option Instr :=
  if nbits = Geometry.default.W ∧ w < 2 ^ nbits then
    some (decode OpcodeMap.default (BitVec.ofNat Geometry.default.W w))
  else none

end Sys2Proof
end

