-- ==== Sys2Proof/Machine/State.lean ====
section
/-! DEFINITION. The machine's state as plain data, its reset value, and the reasons a step can stop. -/

namespace Sys2Proof.Machine

/-- The fault causes with their codes 0 to 3 (spec/60_exceptions.md R211); `Cause.code` gives the numbers. -/
inductive Cause where
  | none
  | oobFetch
  | oobData
  | invalidOpcode
  deriving DecidableEq, Repr

/-- `STATUS` (10_state.md R39), field by field. `Status.bits` in Ops.lean is the 5-bit word the host reads. -/
structure Status where
  halted : Bool
  faulted : Bool
  iop : Bool
  cause : Cause
  deriving DecidableEq, Repr

/-- `PHASE` (10_state.md R43). -/
inductive Phase where
  | fetch
  | decode
  | execute
  deriving DecidableEq, Repr

/-- The core's one-bit inputs (70_reset_and_hazards.md R254). `rst` and `run` are levels; `step` is a one-clock pulse,
true while a pulse is present. The host sets them (HostOps.lean). -/
structure Pins where
  rst : Bool
  run : Bool
  step : Bool
  deriving DecidableEq, Repr

/-- The memory's cells (20_memory.md R60), as the list of the cells that are not zero, by rising address. An unlisted cell
reads as zero (R62). `Memory.wf` in Ops.lean states the form. -/
abbrev Memory (g : Geometry) := List (Nat × Word g)

/-- The whole state (10_state.md R30 to R46) at the widths `g`; `State` alone is the state at the default widths.
`wasReset` is false until the first reset (70_reset_and_hazards.md R243). -/
structure State (g : Geometry := Geometry.default) where
  cfg : Params
  acc : Word g
  pc : PcWord g
  status : Status
  faultAddr : PcWord g
  ir : Word g
  phase : Phase
  mem : Memory g
  pins : Pins
  wasReset : Bool
  deriving DecidableEq, Repr

/-- Why the model stops a step without a next state. The spec's own faults (60_exceptions.md R211) are taken
in a next state with `STATUS.FAULTED` set; it is the state after them that has no step. -/
inductive Fault where
  /-- Raised by the sequencer (`stepWith`, `edgeWith`) when the core is asked to run before its first reset: "the core
  must not run" (70_reset_and_hazards.md R243), treated as stuck (93_implementation_defined.md row 14). Safe. -/
  | beforeFirstReset
  /-- Raised by `stepWith` when the core has executed `HLT` and is not being reset: "A halted or faulted state has no step"
  (40_cycle.md R138, R139). The clock edges go on and hold the state (`edgeWith`). Safe. -/
  | halted
  /-- Raised by `stepWith` when a fault with that cause has stopped the core and it is not being reset (40_cycle.md R138,
  R139). The fault itself is taken in a next state before. Safe. -/
  | faulted (cause : Cause)
  deriving DecidableEq, Repr

/-- Why an instruction has no meaning here. -/
inductive Refusal where
  /-- Kept for an arm of `exec` that is not written yet; no arm uses it. Safe. -/
  | notModelled (mnemonic : String)
  deriving DecidableEq, Repr

/-- What one step answers. -/
abbrev Result (g : Geometry) := Host.Outcome (State g) Fault Refusal

/-- `STATUS = 0`: running, no fault, no invalid opcode seen (10_state.md R46). -/
abbrev Status.clear : Status := { halted := false, faulted := false, iop := false, cause := .none }

/-- The machine right after reset with the default parameters, memory as created (10_state.md R46, 20_memory.md R62).
`ir`: DESIGN CHOICE, log entry 2. `pins`: reset released with `run = 1` (70_reset_and_hazards.md R248, R250), DESIGN
CHOICE, log entry 3. -/
def State.reset : State :=
  { cfg := Params.default
    acc := 0
    pc := 0
    status := Status.clear
    faultAddr := 0
    ir := BitVec.ofNat _ irAfterReset
    phase := .fetch
    mem := []
    pins := { rst := false, run := true, step := false }
    wasReset := true }

end Sys2Proof.Machine
end

