-- ==== Sys2Proof/Machine/Ops.lean ====
section
/-! DEFINITION. The named operations on memory and registers, entering a fault, halting, and reset. -/

namespace Sys2Proof.Machine

variable {g : Geometry}

/-! ### Memory -/

/-- The word in a cell; a cell the list does not name is zero (spec/20_memory.md R62). -/
def Memory.read : Memory g → Nat → Word g
  | [], _ => 0
  | (k, v) :: m, a => if k = a then v else Memory.read m a

/-- Overwrite one cell and keep the form `Memory.wf`: a zero word removes the cell from the list (R62, R64). -/
def Memory.write : Memory g → Nat → Word g → Memory g
  | [], a, v => if v = 0 then [] else [(a, v)]
  | (k, x) :: m, a, v =>
    if a < k then (if v = 0 then (k, x) :: m else (a, v) :: (k, x) :: m)
    else if a = k then (if v = 0 then m else (a, v) :: m)
    else (k, x) :: Memory.write m a v

/-- The form of the list from address `lo` on: addresses strictly rising and below `n`, no zero word listed. -/
def Memory.wfFrom (n : Nat) : Nat → Memory g → Bool
  | _, [] => true
  | lo, (k, v) :: m => lo ≤ k && k < n && v ≠ 0 && Memory.wfFrom n (k + 1) m

/-- The canonical form of a memory of `n` cells (R60, R62). -/
def Memory.wf (n : Nat) (m : Memory g) : Bool := Memory.wfFrom n 0 m

/-- `MemRead(a, 1)`: the word of cell `a`, nothing where `a >= N` (R63, R72). -/
def State.memRead (s : State g) (a : Nat) : Option (Word g) :=
  if a < s.cfg.capacity then some (Memory.read s.mem a) else none

/-- `MemWrite(a, 1, v)`: the state with cell `a` overwritten, nothing where `a >= N` (R64, R72). -/
def State.memWrite (s : State g) (a : Nat) (v : Word g) : Option (State g) :=
  if a < s.cfg.capacity then some { s with mem := Memory.write s.mem a v } else none

/-! ### Registers and status -/

/-- The number of a cause in `STATUS.CAUSE` (60_exceptions.md R211). -/
def Cause.code : Cause → BitVec 2
  | .none => 0
  | .oobFetch => 1
  | .oobData => 2
  | .invalidOpcode => 3

/-- `STATUS` as the 5-bit word of `status_out`: CAUSE in 4:3, IOP in 2, FAULTED in 1, HALTED in 0 (10_state.md R39). -/
def Status.bits (t : Status) : BitVec 5 :=
  t.cause.code ++ (BitVec.ofBool t.iop ++ (BitVec.ofBool t.faulted ++ BitVec.ofBool t.halted))

/-- `ACC <- v` (00_scope.md R12). -/
def State.setAcc (s : State g) (v : Word g) : State g := { s with acc := v }

/-- `pc <- target` (00_scope.md R12). -/
def State.setPc (s : State g) (t : PcWord g) : State g := { s with pc := t }

/-- `halt`: `STATUS.HALTED <- 1` and nothing else (43_control.md R194, R196). -/
def State.halt (s : State g) : State g := { s with status := { s.status with halted := true } }

/-- The report of an invalid opcode under `LENIENT`: `STATUS.IOP <- 1` and nothing else (43_control.md R198). -/
def State.reportInvalid (s : State g) : State g := { s with status := { s.status with iop := true } }

/-- `raise Fault(cause, x)` (60_exceptions.md R212): FAULTED, CAUSE and `FAULT_ADDR <- trunc_PCW(x)`. Nothing else is
written; there is no handler and no return from a fault but reset (R213, R218). -/
def State.raiseFault (s : State g) (c : Cause) (x : Nat) : State g :=
  { s with status := { s.status with faulted := true, cause := c }, faultAddr := BitVec.ofNat g.pcw x }

/-- The core is neither halted nor faulted (10_state.md R41). -/
def State.live (s : State g) : Bool := !s.status.halted && !s.status.faulted

/-- Why a halted or faulted core has no step (40_cycle.md R138, R139). -/
def State.stopReason (s : State g) : Fault := if s.status.halted then .halted else .faulted s.status.cause

/-- What a clock edge with `rst = 1` sets (70_reset_and_hazards.md R240); parameters, memory and inputs stay (R242). `ir`:
DESIGN CHOICE, log entry 2. -/
def State.coreReset (s : State g) : State g :=
  { s with
    acc := 0
    pc := 0
    status := Status.clear
    faultAddr := 0
    ir := BitVec.ofNat _ irAfterReset
    phase := .fetch
    wasReset := true }

/-! ### An invalid opcode -/

/-- An opcode with no instruction (43_control.md R198): `LENIENT` reports it and goes on; `STRICT` raises
`INVALID_OPCODE` at `PC - 1`, the instruction's own address, since the fetch moved `PC` past it. -/
def State.invalidOpcode (s : State g) : State g :=
  match s.cfg.policy with
  | .lenient => s.reportInvalid
  | .strict => s.raiseFault .invalidOpcode (s.pc - 1).toNat

end Sys2Proof.Machine
end

