-- ==== Sys2Proof/Machine/Cycle.lean ====
section
/-! DEFINITION. The fetch-decode-execute cycle (spec/40_cycle.md) and what the inputs `rst`, `run` and `step` do with it
(70_reset_and_hazards.md section 3), for any execute phase `ex`. `stepWith` goes from instruction boundary to instruction
boundary; `edgeWith` goes one phase at a time (the reference sequencer of 10_state.md R43). -/

namespace Sys2Proof.Machine

variable {g : Geometry}

/-- The fetch (40_cycle.md R131): `IR <- MemRead(PC, 1)`, `PC <- PC + 1`; `OOB_FETCH` at `PC` where `PC >= N`, and then
nothing is read and `PC` stays (R132). -/
def State.fetchPhase (s : State g) : State g :=
  match s.memRead s.pc.toNat with
  | some w => { s with ir := w, pc := s.pc + 1, phase := .decode }
  | none => s.raiseFault .oobFetch s.pc.toNat

/-- The decode writes no architectural state (R133). -/
def State.decodePhase (s : State g) : State g := { s with phase := .execute }

/-- The instruction in `IR` (R133, 30_encoding.md R94). -/
def State.decoded (s : State g) : Instr := decode s.cfg.opcodeMap s.ir

/-- The execute phase (R134); `PHASE` is back at `FETCH` when it ends. -/
def executePhase (ex : Instr → State g → Result g) (s : State g) : Result g :=
  match ex s.decoded s with
  | .next t => .next { t with phase := .fetch }
  | .fault r => .fault r
  | .refused r => .refused r

/-- The pulse on `step` lasts one clock (70_reset_and_hazards.md R251), so no step leaves it set. DESIGN CHOICE, log
entry 3. -/
def State.dropPulse (s : State g) : State g := { s with pins := { s.pins with step := false } }

/-- The core waits at an instruction boundary: `run = 0` and no `step` pulse (R250, R251). -/
def State.waiting (s : State g) : Bool := s.phase = .fetch && !s.pins.run && !s.pins.step

/-- From the state's phase to the end of the instruction: the whole cycle at a boundary (40_cycle.md R130), and the rest
of it inside an instruction, which `run = 0` does not stop (70_reset_and_hazards.md R250). -/
def completeInstr (ex : Instr → State g → Result g) (s : State g) : Result g :=
  match s.phase with
  | .fetch =>
    if s.pc.toNat < s.cfg.capacity then executePhase ex s.fetchPhase.decodePhase
    else .next s.fetchPhase
  | .decode => executePhase ex s.decodePhase
  | .execute => executePhase ex s

/-- One step, to the next instruction boundary. Reset comes first (60_exceptions.md R215); before the first reset the core
must not run (70_reset_and_hazards.md R243); a halted or faulted core has no step (40_cycle.md R138, R139); a waiting core
waits (log entry 5); otherwise one instruction runs (R138, R140). -/
def stepWith (ex : Instr → State g → Result g) (s : State g) : Result g :=
  if s.pins.rst then .next s.dropPulse.coreReset
  else if !s.wasReset then .fault .beforeFirstReset
  else if !s.live then .fault s.stopReason
  else if s.waiting then .next s
  else completeInstr ex s.dropPulse

/-- One clock edge of the reference sequencer: one phase instead of one instruction. An edge with `rst = 1` abandons the
instruction in progress with no effect (R240, R259). A halted or faulted core has clock edges where it has no step: they
hold its state until reset (43_control.md R196, 60_exceptions.md R213), and a `step` pulse has no effect (R251). -/
def edgeWith (ex : Instr → State g → Result g) (s : State g) : Result g :=
  if s.pins.rst then .next s.dropPulse.coreReset
  else if !s.wasReset then .fault .beforeFirstReset
  else if !s.live then .next s.dropPulse
  else if s.waiting then .next s
  else
    match s.phase with
    | .fetch => .next s.dropPulse.fetchPhase
    | .decode => .next s.dropPulse.decodePhase
    | .execute => executePhase ex s.dropPulse

/-- The next `k` clock edges. -/
def edgesWith (ex : Instr → State g → Result g) : Nat → State g → Result g
  | 0, s => .next s
  | k + 1, s =>
    match edgeWith ex s with
    | .next t => edgesWith ex k t
    | .fault r => .fault r
    | .refused r => .refused r

/-- Clock edges up to the next instruction boundary, at most `k` of them. -/
def edgesToBoundary (ex : Instr → State g → Result g) : Nat → State g → Result g
  | 0, s => .next s
  | k + 1, s =>
    match edgeWith ex s with
    | .next t => if t.phase = .fetch then .next t else edgesToBoundary ex k t
    | .fault r => .fault r
    | .refused r => .refused r

/-- `s` with the word `w` where the next step fetches, made ready for that step: out of reset and after it, running, at an
instruction boundary, with `PC` inside the memory. What already is so stays as it is. -/
def State.placeNext (s : State g) (w : Word g) : State g :=
  let pc : PcWord g := if s.pc.toNat < s.cfg.capacity then s.pc else 0
  { s with
    pc := pc
    mem := Memory.write s.mem pc.toNat w
    status := if s.live then s.status else { s.status with halted := false, faulted := false, cause := .none }
    faultAddr := if s.live then s.faultAddr else 0
    phase := .fetch
    pins := { s.pins with rst := false, run := s.pins.run || !s.pins.step }
    wasReset := true }

end Sys2Proof.Machine
end

