-- ==== Sys2Proof/Machine/Flags.lean ====
section
/-! DEFINITION. The ALU and the one condition an instruction tests. The core has no flags (spec/10_state.md R37): carry and
borrow are discarded (42_arithmetic.md R176) and `JNZ` looks at `ACC` itself. -/

namespace Sys2Proof.Machine

variable {g : Geometry}

/-- `(x + y) mod 2^W`, the carry out discarded (42_arithmetic.md R170, R175). -/
def aluAdd (x y : Word g) : Word g := x + y

/-- `(x - y) mod 2^W`, the borrow discarded; the minuend comes first (42_arithmetic.md R172, R175). -/
def aluSub (x y : Word g) : Word g := x - y

/-- The test of `JNZ`: all `W` bits, any non-zero value (43_control.md R190). -/
def isNonZero (x : Word g) : Bool := x ≠ 0

end Sys2Proof.Machine
end

