-- ==== Sys2Proof/Machine/Operands.lean ====
section
/-! DEFINITION. The one operand form: direct (absolute) addressing (spec/30_encoding.md R92), with its bound check. -/

namespace Sys2Proof.Machine

variable {g : Geometry}

/-- An instruction that reads cell `a`: `OOB_DATA` at `a` where `a >= N`, otherwise go on with the word read
(41_load_store.md R150, 42_arithmetic.md R170, R172). -/
def State.withOperand (s : State g) (a : Nat) (k : Word g → State g) : State g :=
  match s.memRead a with
  | some w => k w
  | none => s.raiseFault .oobData a

/-- An instruction that writes `v` to cell `a`: `OOB_DATA` at `a` where `a >= N` and then no cell changes
(41_load_store.md R153). -/
def State.storeOperand (s : State g) (a : Nat) (v : Word g) : State g :=
  match s.memWrite a v with
  | some t => t
  | none => s.raiseFault .oobData a

/-- The jump target of an operand: `PC <- a`, absolute, not checked against `N` here (43_control.md R190, R191). -/
def jumpTarget (g : Geometry) (a : Nat) : PcWord g := BitVec.ofNat g.pcw a

end Sys2Proof.Machine
end

