-- ==== Sys2Proof/Machine/Arithmetic.lean ====
section
/-! DEFINITION. The execute phases of `ADD` and `SUB` (spec/42_arithmetic.md). `PC` already stands at `A + 1`. -/

namespace Sys2Proof.Machine

variable {g : Geometry}

/-- `ADD a`: `ACC <- (ACC + MemRead(a, 1)) mod 2^W`, `OOB_DATA` when `a >= N` (R170). -/
def execAdd (a : Nat) (s : State g) : Result g := .next (s.withOperand a fun w => s.setAcc (aluAdd s.acc w))

/-- `SUB a`: `ACC <- (ACC - MemRead(a, 1)) mod 2^W`, `OOB_DATA` when `a >= N` (R172). -/
def execSub (a : Nat) (s : State g) : Result g := .next (s.withOperand a fun w => s.setAcc (aluSub s.acc w))

end Sys2Proof.Machine
end

