-- ==== Sys2Proof/Machine/Control.lean ====
section
/-! DEFINITION. The execute phases of `JNZ`, `HLT` and the invalid opcodes 6 and 7 (spec/43_control.md). -/

namespace Sys2Proof.Machine

variable {g : Geometry}

/-- `JNZ a`: `if ACC != 0 then PC <- a`, else `PC` stays where the fetch left it (R190). A target at or above `N` is no
fault here (R191). -/
def execJnz (a : Nat) (s : State g) : Result g :=
  .next (if isNonZero s.acc then s.setPc (jumpTarget g a) else s)

/-- `HLT`: `STATUS.HALTED <- 1`, no register or memory change (R194). -/
def execHlt (s : State g) : Result g := .next s.halt

/-- Opcode 6 (R198). -/
def execInvalidOp6 (s : State g) : Result g := .next s.invalidOpcode

/-- Opcode 7 (R198). -/
def execInvalidOp7 (s : State g) : Result g := .next s.invalidOpcode

end Sys2Proof.Machine
end

