-- ==== Sys2Proof/Machine/LoadStore.lean ====
section
/-! DEFINITION. The execute phases of `LDA` and `STA` (spec/41_load_store.md). `PC` already stands at `A + 1`. -/

namespace Sys2Proof.Machine

variable {g : Geometry}

/-- `LDA a`: `ACC <- MemRead(a, 1)`, `OOB_DATA` when `a >= N` (R150). -/
def execLda (a : Nat) (s : State g) : Result g := .next (s.withOperand a fun w => s.setAcc w)

/-- `STA a`: `MemWrite(a, 1, ACC)`, `OOB_DATA` when `a >= N` (R153). -/
def execSta (a : Nat) (s : State g) : Result g := .next (s.storeOperand a s.acc)

end Sys2Proof.Machine
end

