-- ==== Sys2Proof/Machine/Dispatch.lean ====
section
/-! DEFINITION. The dispatch of the execute phase (spec/40_cycle.md R134): one arm per constructor of Instr. -/

namespace Sys2Proof.Machine

/-- The execute phase of an instruction at the default widths; it starts where the fetch ended, with `PC = A + 1`. -/
def exec (i : Instr) (s : State) : Host.Outcome State Fault Refusal :=
  match i with
  | .lda a => Sys2Proof.Machine.execLda a s
  | .add a => Sys2Proof.Machine.execAdd a s
  | .sub a => Sys2Proof.Machine.execSub a s
  | .jnz a => Sys2Proof.Machine.execJnz a s
  | .sta a => Sys2Proof.Machine.execSta a s
  | .hlt => Sys2Proof.Machine.execHlt s
  | .invalidOp6 => Sys2Proof.Machine.execInvalidOp6 s
  | .invalidOp7 => Sys2Proof.Machine.execInvalidOp7 s

end Sys2Proof.Machine
end

