-- ==== Sys2Proof/Machine/Step.lean ====
section
/-! DEFINITION. The machine's step at the default widths, and where the host places an instruction to be stepped. -/

namespace Sys2Proof.Machine

/-- One step: one instruction where the core runs (spec/40_cycle.md R138, R140); `stepWith` says what else. -/
def step : State → Host.Outcome State Fault Refusal := stepWith exec

/-- One clock edge: one phase of an instruction where the core runs (10_state.md R43, 70_reset_and_hazards.md R240). -/
def edge : State → Host.Outcome State Fault Refusal := edgeWith exec

/-- `s` with the table word `w` stored at `PC`, so that the next step fetches and runs it. The instruction is one word, so
the bits of `w` at and above `nbits` are dropped. -/
def State.withFetchWord (s : State) (nbits w : Nat) : State :=
  s.placeNext (BitVec.ofNat _ (w % 2 ^ nbits))

end Sys2Proof.Machine
end

