-- ==== Sys2Proof/Machine/AnyWidth.lean ====
section
/-! DEFINITION. The same machine at any legal widths `W` and `ADW` (spec/00_scope.md R8). `Dispatch.lean`'s `exec` and
`Step.lean`'s `step` are this machine at the default widths. -/

namespace Sys2Proof.Machine

variable {g : Geometry}

/-- The dispatch of the execute phase (40_cycle.md R134) at any widths. -/
def execAt (i : Instr) (s : State g) : Result g :=
  match i with
  | .lda a => execLda a s
  | .add a => execAdd a s
  | .sub a => execSub a s
  | .jnz a => execJnz a s
  | .sta a => execSta a s
  | .hlt => execHlt s
  | .invalidOp6 => execInvalidOp6 s
  | .invalidOp7 => execInvalidOp7 s

/-- One step at any widths. -/
def stepAt (s : State g) : Result g := stepWith execAt s

/-- One clock edge at any widths. -/
def edgeAt (s : State g) : Result g := edgeWith execAt s

end Sys2Proof.Machine
end

