-- ==== Sys2Proof/Machine/Assembler.lean ====
section
/-! DEFINITION. The assembler of spec/30_encoding.md section 5: software, in scope as reference material (00_scope.md R5).
A line is a list of characters. -/

namespace Sys2Proof.Machine

/-- The six mnemonics (R112). -/
inductive Mnemonic where
  | lda
  | add
  | sub
  | jnz
  | sta
  | hlt
  deriving DecidableEq, Repr

/-- The assembler's errors, exactly these (R118). -/
inductive AsmError where
  | unknownMnemonic (token : List Char)
  | invalidOperandFormat (token : List Char)
  | operandOutOfRange (operand : Int)
  | malformedInstruction (line : List Char)
  deriving DecidableEq, Repr

/-- The error of one line (R117, R118) with the number of that line. The rules give an error no line number; that `line`
counts from 0, as R110 counts the input's lines, is DESIGN CHOICE, log entry 15 (95_test_vectors.md writes "line 2" for the
line that has number 1 here). -/
structure AsmFailure where
  line : Nat
  error : AsmError
  deriving DecidableEq, Repr

/-- The whitespace-delimited tokens of a line, `cur` the token being read, reversed (R111). -/
def tokensFrom : List Char → List Char → List (List Char)
  | cur, [] => if cur = [] then [] else [cur.reverse]
  | cur, c :: cs =>
    if c.isWhitespace then
      (if cur = [] then tokensFrom [] cs else cur.reverse :: tokensFrom [] cs)
    else tokensFrom (c :: cur) cs

/-- Step 1: split the line into tokens (R111). Which characters are whitespace: DESIGN CHOICE, log entry 9. -/
def tokens (line : List Char) : List (List Char) := tokensFrom [] line

/-- How a mnemonic is spelt (R112). -/
def Mnemonic.spelling : Mnemonic → List Char
  | .lda => ['L', 'D', 'A']
  | .add => ['A', 'D', 'D']
  | .sub => ['S', 'U', 'B']
  | .jnz => ['J', 'N', 'Z']
  | .sta => ['S', 'T', 'A']
  | .hlt => ['H', 'L', 'T']

/-- Step 2: "case-sensitive, exact match" (R112). -/
def mnemonicOf (token : List Char) : Option Mnemonic :=
  [Mnemonic.lda, .add, .sub, .jnz, .sta, .hlt].find? fun m => m.spelling = token

/-- The value of a digit string in base 10, `acc` the value so far (R116). -/
def digitsFrom : Nat → List Char → Option Nat
  | acc, [] => some acc
  | acc, c :: cs => if c.isDigit then digitsFrom (10 * acc + (c.toNat - '0'.toNat)) cs else none

/-- One or more digits (R116). -/
def parseDigits : List Char → Option Nat
  | [] => none
  | c :: cs => digitsFrom 0 (c :: cs)

/-- A decimal integer: an optional sign and digits (R116). -/
def parseDecimal : List Char → Option Int
  | '+' :: ds => (parseDigits ds).map fun n => (n : Int)
  | '-' :: ds => (parseDigits ds).map fun n => -(n : Int)
  | ds => (parseDigits ds).map fun n => (n : Int)

/-- The instruction of a mnemonic and an operand. -/
def Mnemonic.instr : Mnemonic → Nat → Instr
  | .lda, a => .lda a
  | .add, a => .add a
  | .sub, a => .sub a
  | .jnz, a => .jnz a
  | .sta, a => .sta a
  | .hlt, _ => .hlt

/-- One line, for a memory of `n` cells (R111 to R116). -/
def assembleLine (n : Nat) (line : List Char) : Except AsmError Instr :=
  match tokens line with
  | [] => .error (.malformedInstruction line)
  | t :: rest =>
    match mnemonicOf t with
    | none => .error (.unknownMnemonic t)
    | some m =>
      match rest with
      | [] => if m = .hlt then .ok .hlt else .error (.malformedInstruction line)
      | [o] =>
        if m = .hlt then .error (.malformedInstruction line)
        else
          match parseDecimal o with
          | none => .error (.invalidOperandFormat o)
          | some v => if 0 ≤ v ∧ v < n then .ok (m.instr v.toNat) else .error (.operandOutOfRange v)
      | _ :: _ :: _ => .error (.malformedInstruction line)

/-- The instructions of a program, its first line having number `k`; the first line that fails ends it (R110, R117). -/
def assembleFrom (n : Nat) : Nat → List (List Char) → Except AsmFailure (List Instr)
  | _, [] => .ok []
  | k, line :: rest =>
    match assembleLine n line with
    | .error e => .error { line := k, error := e }
    | .ok i =>
      match assembleFrom n (k + 1) rest with
      | .error f => .error f
      | .ok is => .ok (i :: is)

/-- The words of a program, one a line in the same order (R110), at the parameters the memory is built with (00_scope.md
R9). -/
def assemble (g : Geometry) (p : Params) (program : List (List Char)) : Except AsmFailure (List (Word g)) :=
  match assembleFrom p.capacity 0 program with
  | .error f => .error f
  | .ok is => .ok (is.map (encode g p.opcodeMap))

/-- The mnemonic and operand of an instruction the assembler can spell. -/
def symbolic : Instr → Option (Mnemonic × Option Nat)
  | .lda a => some (.lda, some a)
  | .add a => some (.add, some a)
  | .sub a => some (.sub, some a)
  | .jnz a => some (.jnz, some a)
  | .sta a => some (.sta, some a)
  | .hlt => some (.hlt, none)
  | .invalidOp6 => none
  | .invalidOp7 => none

/-- A hexadecimal digit of a listing. -/
def hexDigit (n : Nat) : Char := if n < 10 then Char.ofNat ('0'.toNat + n) else Char.ofNat ('A'.toNat + (n - 10))

/-- A word as two hexadecimal digits at the default widths (R121). -/
def hexWord (w : Word Geometry.default) : List Char := [hexDigit (w.toNat / 16), hexDigit (w.toNat % 16)]

/-- The listing notation of a word at the default widths (R121): the symbolic form, `HLT` with no operand, and
`.word 0xNN` for an invalid opcode. -/
def listing (m : OpcodeMap) (w : Word Geometry.default) : List Char :=
  match symbolic (decode m w) with
  | some (k, some a) => k.spelling ++ ' ' :: Nat.toDigits 10 a
  | some (k, none) => k.spelling
  | none => ['.', 'w', 'o', 'r', 'd', ' ', '0', 'x'] ++ hexWord w

end Sys2Proof.Machine
end

