-- ==== Sys2Proof/Machine/HostOps.lean ====
section
/-! DEFINITION. What the host can do to the machine (spec/70_reset_and_hazards.md R253, a closed list): drive `rst`, `run`
and `step`, load a program, write and read cells while the core is not running, and boot. -/

namespace Sys2Proof.Machine

variable {g : Geometry}

/-- Why the memory turns a host action away: an address or a program outside the memory (R246, R247), or a core that is
running (20_memory.md R81, R253). -/
inductive HostError where
  | outOfBounds
  | coreRunning
  deriving DecidableEq, Repr

/-- Assert or deassert `rst` (R240, R253). -/
def State.setRst (s : State g) (b : Bool) : State g := { s with pins := { s.pins with rst := b } }

/-- Set the level of `run` (R250). -/
def State.setRun (s : State g) (b : Bool) : State g := { s with pins := { s.pins with run := b } }

/-- Pulse `step` (R251). -/
def State.pulseStep (s : State g) : State g := { s with pins := { s.pins with step := true } }

/-- When the host may touch cells: while reset is held, while the core is halted or faulted, or between single steps
(20_memory.md R81), and before the first reset, when the core must not run (70_reset_and_hazards.md R243, R248 steps 2 and
3 in either order). -/
def State.idle (s : State g) : Bool := s.pins.rst || !s.wasReset || !s.live || s.waiting

/-- Read one cell: allowed while the core is not running, and it changes nothing (R252). -/
def State.hostRead (s : State g) (a : Nat) : Except HostError (Word g) :=
  if s.idle then
    match s.memRead a with
    | some w => .ok w
    | none => .error .outOfBounds
  else .error .coreRunning

/-- Write one data word under the bound `a < N` (R247). -/
def State.hostWrite (s : State g) (a : Nat) (v : Word g) : Except HostError (State g) :=
  if s.idle then
    match s.memWrite a v with
    | some t => .ok t
    | none => .error .outOfBounds
  else .error .coreRunning

/-- Write data words in order; the later write of a cell wins (R247). -/
def State.writeData (s : State g) : List (Nat × Word g) → Except HostError (State g)
  | [] => .ok s
  | (a, v) :: rest =>
    match s.hostWrite a v with
    | .ok t => t.writeData rest
    | .error e => .error e

/-- Words stored one after another from cell `k` on (R246). -/
def storeFrom (m : Memory g) : Nat → List (Word g) → Memory g
  | _, [] => m
  | k, w :: ws => storeFrom (Memory.write m k w) (k + 1) ws

/-- The loader (R246): word `i` at address `i`, or `OutOfBounds` and no state where the program is longer than the memory
(what memory then holds is unspecified, and no run starts). -/
def State.loadProgram (s : State g) (ws : List (Word g)) : Except HostError (State g) :=
  if s.idle then
    if ws.length ≤ s.cfg.capacity then .ok { s with mem := storeFrom s.mem 0 ws } else .error .outOfBounds
  else .error .coreRunning

/-- The boot order (R248) from a core in any condition: assert `rst` and give it a clock edge, load the program, write the
data, deassert `rst` with `run = 1`. The result is the launch state (R245). -/
def State.boot (s : State g) (program : List (Word g)) (data : List (Nat × Word g)) : Except HostError (State g) :=
  match ((s.setRst true).dropPulse.coreReset).loadProgram program with
  | .error e => .error e
  | .ok t =>
    match t.writeData data with
    | .error e => .error e
    | .ok u => .ok ((u.setRst false).setRun true)

end Sys2Proof.Machine
end

