-- ==== Sys2Proof/Machine/Port.lean ====
section
/-! DEFINITION. What the core drives on its memory port (spec/20_memory.md R70 to R72) and on its outputs
(70_reset_and_hazards.md R252), as functions of the state between two clock edges. -/

namespace Sys2Proof.Machine

variable {g : Geometry}

/-- The port in one clock: no strobe, `mem_re` with an address, or `mem_we` with an address and a word. One constructor
at a time, so the strobes are never high together (R70). Without a strobe the spec states no `mem_addr` (log entry 8). -/
inductive PortDrive (g : Geometry) where
  | idle
  | read (addr : BitVec g.ADW)
  | write (addr : BitVec g.ADW) (data : Word g)
  deriving DecidableEq, Repr

/-- `mem_re` (R70). -/
def memRe : PortDrive g → Bool
  | .idle => false
  | .read _ => true
  | .write _ _ => false

/-- `mem_we` (R70). -/
def memWe : PortDrive g → Bool
  | .idle => false
  | .read _ => false
  | .write _ _ => true

/-- `mem_addr` where a strobe is high (R70). -/
def memAddr : PortDrive g → Option (BitVec g.ADW)
  | .idle => none
  | .read a => some a
  | .write a _ => some a

/-- `mem_wdata` where `mem_we` is high (R70). -/
def memWdata : PortDrive g → Option (Word g)
  | .idle => none
  | .read _ => none
  | .write _ v => some v

/-- A read of cell `a`, driven only after the check `a < N` (R72). -/
def State.driveRead (s : State g) (a : Nat) : PortDrive g :=
  if a < s.cfg.capacity then .read (BitVec.ofNat g.ADW a) else .idle

/-- A write of `v` to cell `a`, driven only after the check `a < N` (R72). -/
def State.driveWrite (s : State g) (a : Nat) (v : Word g) : PortDrive g :=
  if a < s.cfg.capacity then .write (BitVec.ofNat g.ADW a) v else .idle

/-- The data access of an instruction's execute phase (R71): a read for `LDA`, `ADD`, `SUB`, a write for `STA`, none for
`JNZ`, `HLT` and the invalid opcodes. -/
def State.driveData (s : State g) : Instr → PortDrive g
  | .lda a => s.driveRead a
  | .add a => s.driveRead a
  | .sub a => s.driveRead a
  | .jnz _ => .idle
  | .sta a => s.driveWrite a s.acc
  | .hlt => .idle
  | .invalidOp6 => .idle
  | .invalidOp7 => .idle

/-- The port in the clock before the next edge. No strobe while `rst = 1` (R240), before the first reset (R243), while
halted or faulted (43_control.md R196, 60_exceptions.md R213) and while waiting (R250); otherwise by phase (R71). -/
def State.portDrive (s : State g) : PortDrive g :=
  if s.pins.rst || !s.wasReset || !s.live || s.waiting then .idle
  else
    match s.phase with
    | .fetch => s.driveRead s.pc.toNat
    | .decode => .idle
    | .execute => s.driveData s.decoded

/-- `mem_rdata`: the word of the addressed cell, in the same clock as `mem_re` (R70). -/
def State.memRdata (s : State g) : Option (Word g) :=
  match s.portDrive with
  | .idle => none
  | .read a => s.memRead a.toNat
  | .write _ _ => none

/-- The memory after the clock: a write strobe writes its cell at the end of the clock (R70), nothing else changes one. -/
def memAfter (m : Memory g) : PortDrive g → Memory g
  | .idle => m
  | .read _ => m
  | .write a v => Memory.write m a.toNat v

/-- The outputs `acc_out`, `pc_out`, `status_out`, `fault_addr_out` (70_reset_and_hazards.md R252). -/
structure Outputs (g : Geometry) where
  accOut : Word g
  pcOut : PcWord g
  statusOut : BitVec 5
  faultAddrOut : PcWord g
  deriving DecidableEq, Repr

/-- The core drives its registers on its outputs at all times (R252). -/
def State.outputs (s : State g) : Outputs g :=
  { accOut := s.acc, pcOut := s.pc, statusOut := s.status.bits, faultAddrOut := s.faultAddr }

end Sys2Proof.Machine
end

