-- ==== Sys2Proof/Safety.lean ====
section
/-! DEFINITION. The invariant of the machine, the conditions under which a step runs an instruction, and what a run without
a fault is: the terms the statements are written in. -/

namespace Sys2Proof.Machine

variable {g : Geometry}

/-- What holds of every state between two clock edges, from the rules named at each field. -/
structure State.Inv (s : State g) : Prop where
  /-- The parameters are legal (spec/00_scope.md R8). -/
  params : s.cfg.Legal g
  /-- The memory is in canonical form and has no cell at or above `N` (20_memory.md R60, R62). -/
  mem : Memory.wf s.cfg.capacity s.mem = true
  /-- `PC` is at most `2^ADW` (10_state.md R35). -/
  pcBound : s.pc.toNat ≤ 2 ^ g.ADW
  /-- `HALTED` and `FAULTED` are never both 1 (60_exceptions.md R216). -/
  notBoth : s.status.halted = true → s.status.faulted = false
  /-- `CAUSE` is non-zero exactly when `FAULTED` is 1 (10_state.md R39). -/
  causeIff : s.status.faulted = true ↔ s.status.cause ≠ .none
  /-- `FAULT_ADDR` is 0 while `FAULTED` is 0 (10_state.md R40). -/
  addrZero : s.status.faulted = false → s.faultAddr = 0
  /-- The row of `OOB_FETCH` (60_exceptions.md R211). -/
  fetchFault : s.status.cause = .oobFetch → s.cfg.capacity ≤ s.pc.toNat ∧ s.faultAddr = s.pc
  /-- The row of `OOB_DATA` (60_exceptions.md R211). -/
  dataFault : s.status.cause = .oobData → s.cfg.capacity ≤ s.faultAddr.toNat ∧ s.faultAddr.toNat < 2 ^ g.ADW
  /-- The row of `INVALID_OPCODE` (60_exceptions.md R211). -/
  opcodeFault : s.status.cause = .invalidOpcode → s.cfg.policy = .strict ∧ s.pc = s.faultAddr + 1
  /-- `IOP` is not set under `STRICT` (43_control.md R199). -/
  iopLenient : s.status.iop = true → s.cfg.policy = .lenient
  /-- A halted or faulted core stands at an instruction boundary (60_exceptions.md R214). -/
  stoppedAtFetch : s.live = false → s.phase = .fetch

/-- The core runs, or goes on running, an instruction at the next step: out of reset and after it, neither halted nor
faulted, not waiting (40_cycle.md R135). -/
def State.ready (s : State g) : Bool := !s.pins.rst && s.wasReset && s.live && !s.waiting

/-- The run is over: the core is halted or faulted and is not being reset (40_cycle.md R139). -/
def State.ended (s : State g) : Bool := !s.pins.rst && s.wasReset && !s.live

/-- The next step fetches an instruction from memory: ready, at an instruction boundary, `PC < N` (40_cycle.md R131). -/
def State.fetches (s : State g) : Bool := s.ready && s.phase = .fetch && s.pc.toNat < s.cfg.capacity

/-- The word the next fetch reads (40_cycle.md R131). -/
def State.fetchedWord (s : State g) : Word g := Memory.read s.mem s.pc.toNat

/-- The state with the fetch's writes to `IR` and `PC` in it and nothing of the execute phase, at an instruction boundary
(40_cycle.md R131); a `step` pulse is over (70_reset_and_hazards.md R251). -/
def State.afterFetch (s : State g) : State g :=
  { s with ir := s.fetchedWord, pc := s.pc + 1, pins := { s.pins with step := false } }

/-- A step of `s` answers a next state, and it is `t` in everything but the inputs `rst`, `run` and `step`: what the model
makes of those after a step (log entry 3) is left out of a statement that uses this. -/
def StepsTo (s t : State) : Prop := ∃ u, step s = .next u ∧ { u with pins := t.pins } = t

/-- The execute phases of several instructions, one after another. -/
def execAll : List Instr → State → Result Geometry.default
  | [], s => .next s
  | i :: is, s =>
    match exec i s with
    | .next t => execAll is t
    | .fault r => .fault r
    | .refused r => .refused r

/-- A run of `k` steps with no host action reaches `t`, and no fault of the core (60_exceptions.md R212) or of the model has
stopped it. -/
def SafeRun (k : Nat) (s t : State) : Prop := Host.Core.run Sys2Proof.core k s = .next t ∧ t.status.faulted = false

end Sys2Proof.Machine
end

