-- ==== Sys2Proof/Certificates/Slice0/Obligations.lean ====
section
/-! DEFINITION. The statements for the provers, each over the model's own definitions. Where a statement names a rule, the
rule's number is in its docstring with the file of spec/ it stands in. -/

open Sys2Proof Sys2Proof.Machine

/-! ### Encoding -/

/-- R101 (30_encoding.md): decode after encode gives the instruction back, for every valid one and, beyond the rule, for
every one whose operand fits the field; at any widths and under any legal map. The words of what R102 does not encode, the
invalid opcodes and an operand at or above `N`, are the model's choice (log entry 11). -/
def Obligations.DecodeEncodeRoundTrip : Prop :=
  ∀ (g : Geometry) (p : Params) (i : Instr), p.Legal g →
    (i.valid p.capacity = true → i.wellFormed g = true) ∧
      (i.wellFormed g = true → decode p.opcodeMap (encode g p.opcodeMap i) = i)

/-- R91, R93 to R95, R97 (30_encoding.md): the two fields are quotient and remainder of the word, and each value of `op`
gives its instruction. -/
def Obligations.DecodeFollowsTheOpcodeMap : Prop :=
  ∀ (g : Geometry) (m : OpcodeMap) (w : Word g), m.Bijective →
    (opField w).toNat = w.toNat / 2 ^ (g.W - 3) ∧
    (operandField w).toNat = w.toNat % 2 ^ g.ADW ∧
    ((opField w).toNat = m.lda.val → decode m w = .lda (operandField w).toNat) ∧
    ((opField w).toNat = m.add.val → decode m w = .add (operandField w).toNat) ∧
    ((opField w).toNat = m.sub.val → decode m w = .sub (operandField w).toNat) ∧
    ((opField w).toNat = m.jnz.val → decode m w = .jnz (operandField w).toNat) ∧
    ((opField w).toNat = m.sta.val → decode m w = .sta (operandField w).toNat) ∧
    ((opField w).toNat = m.hlt.val → decode m w = .hlt) ∧
    ((opField w).toNat = 6 → decode m w = .invalidOp6) ∧
    ((opField w).toNat = 7 → decode m w = .invalidOp7)

/-- R96 (30_encoding.md): the bits between the two fields have no effect, the encoder writes them as 0, and at the default
widths there are none. The encoder's words for the invalid opcodes and for an operand at or above `N`, where they are 0 too,
are the model's choice (log entry 11). -/
def Obligations.UnusedWordBitsAreIgnored : Prop :=
  (∀ (g : Geometry) (m : OpcodeMap) (w w' : Word g),
      (∀ k, k < g.W → (k < g.ADW ∨ g.W - 3 ≤ k) → w.getLsbD k = w'.getLsbD k) → decode m w = decode m w') ∧
    (∀ (g : Geometry) (m : OpcodeMap) (i : Instr) (k : Nat), g.ADW ≤ k → k < g.W - 3 →
      (encode g m i).getLsbD k = false) ∧
    ¬∃ k, Geometry.default.ADW ≤ k ∧ k < Geometry.default.W - 3

/-- R92, R98 (30_encoding.md): every decoded instruction fits the encoding, and encoding it again restores its word wherever
the word's ignored bits are 0. That words R102 does not encode, those of the invalid opcodes and of an operand at or above
`N`, are words of the encoder too is the model's choice (log entry 11). -/
def Obligations.EncodeRestoresADecodedWord : Prop :=
  ∀ (g : Geometry) (m : OpcodeMap) (w : Word g), m.Bijective →
    (decode m w).wellFormed g = true ∧
      ((∀ k, g.ADW ≤ k → k < g.W - 3 → w.getLsbD k = false) →
        (decode m w).operand = (operandField w).toNat → encode g m (decode m w) = w)

/-- Words written out from the encodings of R93 decode as 95_test_vectors.md section 2.1 lists them. -/
def Obligations.SampleWordsDecode : Prop :=
  decodeTableWord 8 0b00001111 = some (.lda 15) ∧ decodeTableWord 8 0b00101010 = some (.add 10) ∧
    decodeTableWord 8 0b01010000 = some (.sub 16) ∧ decodeTableWord 8 0b01100010 = some (.jnz 2) ∧
    decodeTableWord 8 0b10001010 = some (.sta 10) ∧ decodeTableWord 8 0b10100111 = some .hlt ∧
    decodeTableWord 8 0b11000000 = some .invalidOp6 ∧ decodeTableWord 8 0b11100101 = some .invalidOp7

/-! ### The cycle -/

/-- R131, R133, R134, R138 (40_cycle.md): when the core fetches, the step is the execute phase of the instruction the word
at `PC` decodes to, run after the fetch has written `IR` and `PC`; around it the step sets `PHASE` and drops a `step`
pulse (the last is the model's choice, log entry 3; `FETCH` after a halt or a fault is log entry 6). -/
def Obligations.StepRunsTheDecodedInstruction : Prop :=
  ∀ s : State, s.fetches = true →
    ∃ t : State, exec (decode s.cfg.opcodeMap s.fetchedWord) { s.afterFetch with phase := .execute } = .next t ∧
      step s = .next { t with phase := .fetch }

/-- R132 (40_cycle.md): a fetch at `PC >= N` faults with `OOB_FETCH` at `PC` and changes nothing else, and no execute phase
raises that fault. -/
def Obligations.FetchOutOfBoundsFaults : Prop :=
  (∀ s : State, s.ready = true → s.phase = .fetch → s.cfg.capacity ≤ s.pc.toNat →
      StepsTo s { s with
        status := { s.status with faulted := true, cause := .oobFetch }
        faultAddr := s.pc } ∧ s.portDrive = .idle) ∧
    ∀ (i : Instr) (s t : State), exec i s = .next t → t.status.cause = .oobFetch → s.status.cause = .oobFetch

/-- R138, R139 (40_cycle.md), R243 (70_reset_and_hazards.md) and row 14 of 93_implementation_defined.md: with `rst = 0` a step
has no next state before the first reset, in the halted state and in the faulted state, and says which; in every other
state, and with `rst = 1` in these too, it has one. That the state before the first reset stops under a name (log entry 4),
and that a waiting core has a step (log entry 5), is the model's choice. -/
def Obligations.StepStopsWhereTheSpecHasNoStep : Prop :=
  ∀ s : State,
    (s.pins.rst = false → s.wasReset = false → step s = .fault .beforeFirstReset) ∧
      (s.pins.rst = false → s.wasReset = true → s.status.halted = true → step s = .fault .halted) ∧
      (s.pins.rst = false → s.wasReset = true → s.status.halted = false → s.status.faulted = true →
        step s = .fault (.faulted s.status.cause)) ∧
      (s.pins.rst = true ∨ s.wasReset = true ∧ s.status.halted = false ∧ s.status.faulted = false →
        ∃ t, step s = .next t)

/-- R130, R138, R140 (40_cycle.md), R250 (70_reset_and_hazards.md): wherever the run is not over, a step is the clock edges
up to the next instruction boundary, at most three; where it is over there is no step, and an edge changes nothing but a
pulse. At any widths. One phase a clock edge is log entry 13, edges of a stopped core log entry 5. -/
def Obligations.StepIsThreeClockEdges : Prop :=
  (∀ s : State, s.ended = false → edgesToBoundary exec 3 s = step s) ∧
    ∀ (g : Geometry) (s : State g), (s.ended = false → edgesToBoundary execAt 3 s = stepAt s) ∧
      (s.ended = true → stepAt s = .fault s.stopReason ∧ edgeAt s = .next { s with pins := { s.pins with step := false } })

/-- R8 (00_scope.md): the machine with the widths as arguments is, at the default widths, the machine `exec`, `step` and
`edge` are. That the model has both is log entry 1; the edge is log entry 13. -/
def Obligations.DefaultWidthsAreAnInstance : Prop :=
  ∀ s : State, stepAt s = step s ∧ edgeAt s = edge s ∧ ∀ i : Instr, execAt i s = exec i s

/-! ### The execute phase of each instruction -/

/-- `LDA`'s execute phase completes: the cell in `ACC`, or `OOB_DATA` (R150, 41_load_store.md). -/
def Obligations.LdaEffect : Prop :=
  ∀ (s : State) (a : Nat),
    (a < s.cfg.capacity → exec (.lda a) s = .next { s with acc := Memory.read s.mem a }) ∧
      (s.cfg.capacity ≤ a →
        exec (.lda a) s = .next { s with
          status := { s.status with faulted := true, cause := .oobData }
          faultAddr := BitVec.ofNat _ a })

/-- `STA`'s execute phase completes: `ACC` in the cell, or `OOB_DATA` and no cell changed (R153, 41_load_store.md). -/
def Obligations.StaEffect : Prop :=
  ∀ (s : State) (a : Nat), Memory.wf s.cfg.capacity s.mem = true →
    (a < s.cfg.capacity → ∃ m, exec (.sta a) s = .next { s with mem := m } ∧
        Memory.read m a = s.acc ∧ ∀ b, b ≠ a → Memory.read m b = Memory.read s.mem b) ∧
      (s.cfg.capacity ≤ a →
        exec (.sta a) s = .next { s with
          status := { s.status with faulted := true, cause := .oobData }
          faultAddr := BitVec.ofNat _ a })

/-- `ADD`'s execute phase completes: the sum modulo `2^W` in `ACC`, or `OOB_DATA` (R170, 42_arithmetic.md). -/
def Obligations.AddEffect : Prop :=
  ∀ (s : State) (a : Nat),
    (a < s.cfg.capacity →
        exec (.add a) s = .next { s with
          acc := BitVec.ofNat _ ((s.acc.toNat + (Memory.read s.mem a).toNat) % 2 ^ Geometry.default.W) }) ∧
      (s.cfg.capacity ≤ a →
        exec (.add a) s = .next { s with
          status := { s.status with faulted := true, cause := .oobData }
          faultAddr := BitVec.ofNat _ a })

/-- `SUB`'s execute phase completes: the difference `ACC` minus memory modulo `2^W` in `ACC`, or `OOB_DATA` (R172,
42_arithmetic.md). -/
def Obligations.SubEffect : Prop :=
  ∀ (s : State) (a : Nat),
    (a < s.cfg.capacity →
        exec (.sub a) s = .next { s with
          acc := BitVec.ofNat _
            ((s.acc.toNat + (2 ^ Geometry.default.W - (Memory.read s.mem a).toNat)) % 2 ^ Geometry.default.W) }) ∧
      (s.cfg.capacity ≤ a →
        exec (.sub a) s = .next { s with
          status := { s.status with faulted := true, cause := .oobData }
          faultAddr := BitVec.ofNat _ a })

/-- `JNZ`'s execute phase completes: `PC` at the operand where `ACC` is not zero, nothing changed where it is (R190,
43_control.md). -/
def Obligations.JnzEffect : Prop :=
  ∀ (s : State) (a : Nat), (Instr.jnz a).wellFormed Geometry.default = true →
    (s.acc ≠ 0 → ∃ p, exec (.jnz a) s = .next { s with pc := p } ∧ p.toNat = a) ∧
      (s.acc = 0 → exec (.jnz a) s = .next s)

/-- `HLT`'s execute phase completes: `HALTED` set and nothing else (R194, 43_control.md). -/
def Obligations.HltEffect : Prop :=
  ∀ s : State, exec .hlt s = .next { s with status := { s.status with halted := true } }

/-- The execute phases of opcodes 6 and 7 complete: `IOP` set under `LENIENT`, the fault `INVALID_OPCODE` at `PC - 1` under
`STRICT` (R198, 43_control.md). -/
def Obligations.InvalidOpcodeEffect : Prop :=
  ∀ (s : State) (i : Instr), i = .invalidOp6 ∨ i = .invalidOp7 →
    (s.cfg.policy = .lenient → exec i s = .next { s with status := { s.status with iop := true } }) ∧
      (s.cfg.policy = .strict → exec i s = .next { s with
        status := { s.status with faulted := true, cause := .invalidOpcode }
        faultAddr := s.pc - 1 })

/-! ### Frames -/

/-- What `LDA`, `ADD` and `SUB` leave unchanged: everything but `ACC` in range, everything but `FAULTED`, `CAUSE` and
`FAULT_ADDR` out of range; every byte of memory always (R150, R170, R172). -/
def Obligations.LoadAndArithmeticFrame : Prop :=
  ∀ (i : Instr) (a : Nat) (s t : State), i = .lda a ∨ i = .add a ∨ i = .sub a → exec i s = .next t →
    (t.cfg = s.cfg ∧ t.pc = s.pc ∧ t.ir = s.ir ∧ t.phase = s.phase ∧ t.pins = s.pins ∧ t.wasReset = s.wasReset) ∧
      (t.status.halted = s.status.halted ∧ t.status.iop = s.status.iop) ∧
      (∀ b, Memory.read t.mem b = Memory.read s.mem b) ∧
      (a < s.cfg.capacity → t.status = s.status ∧ t.faultAddr = s.faultAddr) ∧
      (s.cfg.capacity ≤ a → t.acc = s.acc)

/-- What `STA` leaves unchanged: `ACC`, `PC` and every register but, out of range, `FAULTED`, `CAUSE` and `FAULT_ADDR`; and
every cell but the operand's, every cell out of range (R153). -/
def Obligations.StoreFrame : Prop :=
  ∀ (a : Nat) (s t : State), exec (.sta a) s = .next t →
    (t.cfg = s.cfg ∧ t.acc = s.acc ∧ t.pc = s.pc ∧ t.ir = s.ir ∧ t.phase = s.phase ∧ t.pins = s.pins ∧
        t.wasReset = s.wasReset) ∧
      (t.status.halted = s.status.halted ∧ t.status.iop = s.status.iop) ∧
      (∀ b, b ≠ a → Memory.read t.mem b = Memory.read s.mem b) ∧
      (a < s.cfg.capacity → t.status = s.status ∧ t.faultAddr = s.faultAddr) ∧
      (s.cfg.capacity ≤ a → ∀ b, Memory.read t.mem b = Memory.read s.mem b)

/-- What `JNZ`, `HLT` and the invalid opcodes leave unchanged: memory, `ACC`, `IR` and the configuration always; all of
`STATUS` and `FAULT_ADDR` by `JNZ`; `PC`, and all of `STATUS` but `HALTED`, by `HLT`; `PC`, `HALTED`, and by the policy
either all but `IOP` or all but the fault, by an invalid opcode (R190, R194, R198). -/
def Obligations.ControlFrame : Prop :=
  ∀ (i : Instr) (s t : State), exec i s = .next t →
    (∃ a, i = .jnz a) ∨ i = .hlt ∨ i = .invalidOp6 ∨ i = .invalidOp7 →
    (t.cfg = s.cfg ∧ t.acc = s.acc ∧ t.ir = s.ir ∧ t.phase = s.phase ∧ t.pins = s.pins ∧ t.wasReset = s.wasReset) ∧
      (∀ b, Memory.read t.mem b = Memory.read s.mem b) ∧
      ((∃ a, i = .jnz a) → t.status = s.status ∧ t.faultAddr = s.faultAddr) ∧
      (i = .hlt → t.pc = s.pc ∧ t.faultAddr = s.faultAddr ∧ t.status = { s.status with halted := t.status.halted }) ∧
      (i = .invalidOp6 ∨ i = .invalidOp7 → t.pc = s.pc ∧ t.status.halted = s.status.halted ∧
        (s.cfg.policy = .lenient →
          t.faultAddr = s.faultAddr ∧ t.status = { s.status with iop := t.status.iop }) ∧
        (s.cfg.policy = .strict → t.status.iop = s.status.iop))

/-! ### Whole instruction cycles -/

/-- R150 (41_load_store.md), fetch included: a word with `LDA`'s code loads its cell and leaves `PC = A + 1`; out of range it
faults with `ACC` kept, and the assembler emits no such word. -/
def Obligations.LdaCycle : Prop :=
  ∀ (s : State) (a : Nat), s.fetches = true → s.cfg.opcodeMap.Bijective →
    (opField s.fetchedWord).toNat = s.cfg.opcodeMap.lda.val → a = (operandField s.fetchedWord).toNat →
    (a < s.cfg.capacity → StepsTo s { s.afterFetch with acc := Memory.read s.mem a }) ∧
      (s.cfg.capacity ≤ a →
        StepsTo s { s.afterFetch with
          status := { s.status with faulted := true, cause := .oobData }
          faultAddr := BitVec.ofNat _ a } ∧
        ∀ line, assembleLine s.cfg.capacity line ≠ .ok (.lda a))

/-- R153 (41_load_store.md), fetch included: a word with `STA`'s code stores `ACC` in its cell and leaves `PC = A + 1`; out
of range it faults and no cell changes. -/
def Obligations.StaCycle : Prop :=
  ∀ (s : State) (a : Nat), s.fetches = true → s.cfg.opcodeMap.Bijective → Memory.wf s.cfg.capacity s.mem = true →
    (opField s.fetchedWord).toNat = s.cfg.opcodeMap.sta.val → a = (operandField s.fetchedWord).toNat →
    (a < s.cfg.capacity → ∃ m, StepsTo s { s.afterFetch with mem := m } ∧
        Memory.read m a = s.acc ∧ ∀ b, b ≠ a → Memory.read m b = Memory.read s.mem b) ∧
      (s.cfg.capacity ≤ a →
        StepsTo s { s.afterFetch with
          status := { s.status with faulted := true, cause := .oobData }
          faultAddr := BitVec.ofNat _ a })

/-- R170 (42_arithmetic.md), fetch included: a word with `ADD`'s code adds its cell to `ACC` modulo `2^W` and leaves
`PC = A + 1`; out of range it faults with `ACC` kept. -/
def Obligations.AddCycle : Prop :=
  ∀ (s : State) (a : Nat), s.fetches = true → s.cfg.opcodeMap.Bijective →
    (opField s.fetchedWord).toNat = s.cfg.opcodeMap.add.val → a = (operandField s.fetchedWord).toNat →
    (a < s.cfg.capacity → ∃ r, StepsTo s { s.afterFetch with acc := r } ∧
        r.toNat = (s.acc.toNat + (Memory.read s.mem a).toNat) % 2 ^ Geometry.default.W) ∧
      (s.cfg.capacity ≤ a →
        StepsTo s { s.afterFetch with
          status := { s.status with faulted := true, cause := .oobData }
          faultAddr := BitVec.ofNat _ a })

/-- R172 (42_arithmetic.md), fetch included: a word with `SUB`'s code subtracts its cell from `ACC` modulo `2^W` and leaves
`PC = A + 1`; out of range it faults with `ACC` kept. -/
def Obligations.SubCycle : Prop :=
  ∀ (s : State) (a : Nat), s.fetches = true → s.cfg.opcodeMap.Bijective →
    (opField s.fetchedWord).toNat = s.cfg.opcodeMap.sub.val → a = (operandField s.fetchedWord).toNat →
    (a < s.cfg.capacity → ∃ r, StepsTo s { s.afterFetch with acc := r } ∧
        r.toNat = (s.acc.toNat + (2 ^ Geometry.default.W - (Memory.read s.mem a).toNat)) % 2 ^ Geometry.default.W) ∧
      (s.cfg.capacity ≤ a →
        StepsTo s { s.afterFetch with
          status := { s.status with faulted := true, cause := .oobData }
          faultAddr := BitVec.ofNat _ a })

/-- R190 (43_control.md), fetch included: a word with `JNZ`'s code puts its operand in `PC` where any bit of `ACC` is set,
and otherwise leaves `PC = A + 1`; it never faults and changes nothing else. -/
def Obligations.JnzCycle : Prop :=
  ∀ (s : State) (a : Nat), s.fetches = true → s.cfg.opcodeMap.Bijective →
    (opField s.fetchedWord).toNat = s.cfg.opcodeMap.jnz.val → a = (operandField s.fetchedWord).toNat →
    ((∃ k, s.acc.getLsbD k = true) → ∃ p, StepsTo s { s.afterFetch with pc := p } ∧ p.toNat = a) ∧
      ((∀ k, s.acc.getLsbD k = false) → StepsTo s s.afterFetch)

/-- R194 (43_control.md), fetch included, and what R195 and R197 infer from it: every word with `HLT`'s code, whatever its `addr` field, sets `HALTED`
and changes nothing else but `PC`, which ends one past the instruction; the assembler's word is `0xA0`. -/
def Obligations.HltCycle : Prop :=
  (∀ s : State, s.fetches = true → s.cfg.Legal Geometry.default →
      (opField s.fetchedWord).toNat = s.cfg.opcodeMap.hlt.val →
      StepsTo s { s.afterFetch with status := { s.status with halted := true } } ∧
        s.afterFetch.pc.toNat = s.pc.toNat + 1) ∧
    encode Geometry.default OpcodeMap.default .hlt = 0xA0

/-- R198 (43_control.md), fetch included: a word with `op` 6 or 7 only sets `IOP` under `LENIENT`; under `STRICT` it faults at
its own address; either way `PC = A + 1` and its execute phase drives no strobe. -/
def Obligations.InvalidOpcodeCycle : Prop :=
  ∀ s : State, s.fetches = true → (opField s.fetchedWord).toNat = 6 ∨ (opField s.fetchedWord).toNat = 7 →
    (s.cfg.policy = .lenient → StepsTo s { s.afterFetch with status := { s.status with iop := true } }) ∧
      (s.cfg.policy = .strict → StepsTo s { s.afterFetch with
        status := { s.status with faulted := true, cause := .invalidOpcode }
        faultAddr := s.pc }) ∧
      ({ s.afterFetch with phase := .execute } : State).portDrive = .idle

/-! ### Memory and self-modifying code -/

/-- R65 (20_memory.md): a read after a write to the same cell gives the word written, whatever was written to other cells in
between; at any widths. -/
def Obligations.StoreThenLoad : Prop :=
  ∀ (g : Geometry) (s : State g) (a : Nat) (v : Word g) (between : List (Nat × Word g)),
    Memory.wf s.cfg.capacity s.mem = true → a < s.cfg.capacity → (∀ c ∈ between, c.1 ≠ a) →
    ∃ t : State g, s.memWrite a v = some t ∧
      ({ t with mem := between.foldl (fun m c => Memory.write m c.1 c.2) t.mem } : State g).memRead a = some v

/-- About the model's own form of memory, log entry 14 (DESIGN CHOICE): two lists of the non-zero cells by rising address
that read alike at every cell are the same list, so equal memories are equal data. The cells and their zero at creation are
R60's and R62's (20_memory.md); the list form is not. -/
def Obligations.MemoryFormIsCanonical : Prop :=
  ∀ (g : Geometry) (n : Nat) (m m' : Memory g), Memory.wf n m = true → Memory.wf n m' = true →
    (∀ a, a < n → Memory.read m a = Memory.read m' a) → m = m'

/-- R156 (41_load_store.md): `STA a`, then any instructions that are not `STA a`, then `LDA a` loads the stored value. -/
def Obligations.StaThenLda : Prop :=
  ∀ (s t u : State) (a : Nat) (between : List Instr), Memory.wf s.cfg.capacity s.mem = true → a < s.cfg.capacity →
    (∀ i ∈ between, i ≠ .sta a) → exec (.sta a) s = .next t → execAll between t = .next u →
    exec (.lda a) u = .next { u with acc := s.acc }

/-- R155 (41_load_store.md): `STA A` at address `A` completes as `STA` with its own word still in `IR`, and a later fetch of
cell `A` reads the stored word. -/
def Obligations.StoreToOwnCell : Prop :=
  ∀ s : State, s.fetches = true → Memory.wf s.cfg.capacity s.mem = true →
    decode s.cfg.opcodeMap s.fetchedWord = .sta s.pc.toNat →
    ∃ m, StepsTo s { s.afterFetch with mem := m } ∧ s.afterFetch.ir = s.fetchedWord ∧
      (∀ b, b ≠ s.pc.toNat → Memory.read m b = Memory.read s.mem b) ∧
      ({ s.afterFetch with mem := m, pc := s.pc } : State).fetchedWord = s.acc

/-- R79 (20_memory.md) and R154 (41_load_store.md): after `STA a`, a fetch from `a` reads the stored word, the very next
fetch included. -/
def Obligations.FetchSeesTheStore : Prop :=
  ∀ (s : State) (a : Nat), s.fetches = true → Memory.wf s.cfg.capacity s.mem = true → a < s.cfg.capacity →
    decode s.cfg.opcodeMap s.fetchedWord = .sta a →
    ∃ t, step s = .next t ∧ (∀ p, p.toNat = a → ({ t with pc := p } : State).fetchedWord = s.acc) ∧
      (t.pc.toNat = a → t.fetchedWord = s.acc)

/-! ### Arithmetic and jumps -/

/-- R177 (42_arithmetic.md): `ADD` then `SUB` of an unchanged cell restores `ACC`, and `n` times `ADD` of a cell holding `v`
adds `n * v` modulo `2^W`. -/
def Obligations.AddSubAlgebra : Prop :=
  ∀ (s : State) (a n : Nat), a < s.cfg.capacity →
    execAll [.add a, .sub a] s = .next s ∧
      execAll (List.replicate n (.add a)) s = .next { s with
        acc := BitVec.ofNat _ ((s.acc.toNat + n * (Memory.read s.mem a).toNat) % 2 ^ Geometry.default.W) }

/-- R174 (42_arithmetic.md): where the difference lies in `[-2^(W-1), 2^(W-1))`, the result of `SUB` read in two's complement
is the difference; at any width. -/
def Obligations.WrappedSubReadsAsTheDifference : Prop :=
  ∀ (g : Geometry) (x y : Word g),
    -(2 ^ (g.W - 1) : Int) ≤ (x.toNat : Int) - y.toNat → (x.toNat : Int) - y.toNat < 2 ^ (g.W - 1) →
    (aluSub x y).toInt = (x.toNat : Int) - y.toNat

/-- R191 (43_control.md): a taken `JNZ` to `a >= N` sets `PC = a` without a fault and the next fetch faults at `a`; not
taken, its target is not used; the assembler emits no such word. -/
def Obligations.JnzOutOfRangeTarget : Prop :=
  ∀ (s : State) (a : Nat), s.fetches = true → s.pins.run = true →
    decode s.cfg.opcodeMap s.fetchedWord = .jnz a → s.cfg.capacity ≤ a →
    (s.acc ≠ 0 → ∃ t, step s = .next t ∧ t.pc.toNat = a ∧ t.status = s.status ∧
        StepsTo t { t with
          status := { t.status with faulted := true, cause := .oobFetch }
          faultAddr := t.pc }) ∧
      (s.acc = 0 → StepsTo s s.afterFetch) ∧
      ∀ line, assembleLine s.cfg.capacity line ≠ .ok (.jnz a)

/-- R139 (40_cycle.md), R192 (43_control.md): `JNZ A` at its own address with `ACC` not zero runs for ever: after any number
of steps the state is the same and nothing has stopped the core. -/
def Obligations.JnzToItselfLoopsForEver : Prop :=
  ∀ s : State, s.fetches = true → s.pins.run = true → s.status.faulted = false → s.acc ≠ 0 →
    decode s.cfg.opcodeMap s.fetchedWord = .jnz s.pc.toNat →
    ∀ k, SafeRun (k + 1) s { s with ir := s.fetchedWord, pins := { s.pins with step := false } }

/-- R199 (43_control.md): under `LENIENT` a row of invalid words runs as no-ops that set `IOP`, and if it reaches the end of
memory the fetch at `N` faults. -/
def Obligations.LenientInvalidWordsWalkOn : Prop :=
  ∀ (s : State) (k : Nat), s.ready = true → s.phase = .fetch → s.pins.run = true → s.cfg.Legal Geometry.default →
    s.cfg.policy = .lenient → s.pc.toNat + (k + 1) ≤ s.cfg.capacity →
    (∀ a, s.pc.toNat ≤ a → a < s.pc.toNat + (k + 1) →
      decode s.cfg.opcodeMap (Memory.read s.mem a) = .invalidOp6 ∨
        decode s.cfg.opcodeMap (Memory.read s.mem a) = .invalidOp7) →
    ∃ t, SafeRun (k + 1) s t ∧ t.pc.toNat = s.pc.toNat + (k + 1) ∧ t.acc = s.acc ∧ t.mem = s.mem ∧
      t.status = { s.status with iop := true } ∧
      (t.pc.toNat = s.cfg.capacity →
        step t = .next { t with
          status := { t.status with faulted := true, cause := .oobFetch }
          faultAddr := BitVec.ofNat _ s.cfg.capacity })

/-! ### Faults, halts and who writes what -/

/-- R214 (60_exceptions.md, its own inference from R212 and R130): a fault leaves the state before the instruction, with
`PC` as R211's table has it, `IR` holding the last word fetched, and the fault recorded (`PHASE` at `FETCH` is log entry
6). -/
def Obligations.FaultsArePrecise : Prop :=
  ∀ s t : State, s.ready = true → s.phase = .fetch → step s = .next t → t.status.faulted = true →
    t = { s with
      pc := if t.status.cause = .oobFetch then s.pc else s.pc + 1
      ir := if t.status.cause = .oobFetch then s.ir else s.fetchedWord
      status := { s.status with faulted := true, cause := t.status.cause }
      faultAddr := t.faultAddr
      pins := t.pins }

/-- R211, R215 (60_exceptions.md): which execute phase raises which fault, and where: `OOB_DATA` at `a` exactly for `LDA`,
`ADD`, `SUB`, `STA` with `a >= N`; `INVALID_OPCODE` at `PC - 1` exactly for opcodes 6 and 7 under `STRICT`; `JNZ` and `HLT`
none, and where none is raised `CAUSE` and `FAULT_ADDR` stay. -/
def Obligations.WhichInstructionsFault : Prop :=
  ∀ (i : Instr) (s t : State), s.status.faulted = false → exec i s = .next t →
    (t.status.faulted = true ↔
      (i = .lda i.operand ∨ i = .add i.operand ∨ i = .sub i.operand ∨ i = .sta i.operand) ∧
          s.cfg.capacity ≤ i.operand ∨
        (i = .invalidOp6 ∨ i = .invalidOp7) ∧ s.cfg.policy = .strict) ∧
      (i = .lda i.operand ∨ i = .add i.operand ∨ i = .sub i.operand ∨ i = .sta i.operand → s.cfg.capacity ≤ i.operand →
        t.status.cause = .oobData ∧ t.faultAddr = BitVec.ofNat _ i.operand) ∧
      (i = .invalidOp6 ∨ i = .invalidOp7 → s.cfg.policy = .strict →
        t.status.cause = .invalidOpcode ∧ t.faultAddr = s.pc - 1) ∧
      (t.status.faulted = false → t.status.cause = s.status.cause ∧ t.faultAddr = s.faultAddr)

/-- R138, R139 (40_cycle.md), R213 (60_exceptions.md), R196 (43_control.md): the run of a halted or faulted core out of reset
is over, with no further step; through any number of clock edges it keeps all its state (a `step` pulse only ends), drives
no strobe, and the host can read every cell. That the clock's edges go on where steps do not is log entry 5. -/
def Obligations.StoppedCoreHoldsItsState : Prop :=
  ∀ (s : State) (k : Nat), s.ended = true →
    Host.Core.run Sys2Proof.core (k + 1) s = .fault s.stopReason ∧
      ∃ t : State, edgesWith exec k s = .next t ∧ t = { s with pins := t.pins } ∧ t.ended = true ∧ t.portDrive = .idle ∧
        t.outputs = s.outputs ∧ ∀ a, a < s.cfg.capacity → t.hostRead a = .ok (Memory.read s.mem a)

/-- R39 (10_state.md): `IOP` is cleared by reset only, `HALTED` and `FAULTED` too, and a recorded fault keeps its cause and
address, through every step and every clock edge. -/
def Obligations.StatusBitsAreClearedByResetOnly : Prop :=
  ∀ s t : State, s.pins.rst = false → step s = .next t ∨ edge s = .next t →
    (s.status.iop = true → t.status.iop = true) ∧ (s.status.halted = true → t.status.halted = true) ∧
      (s.status.faulted = true →
        t.status.faulted = true ∧ t.status.cause = s.status.cause ∧ t.faultAddr = s.faultAddr)

/-- R38 (10_state.md): no instruction reads `STATUS` or `FAULT_ADDR`: with other values there, `ACC`, `PC` and memory come
out the same. -/
def Obligations.StatusIsNeverRead : Prop :=
  ∀ (i : Instr) (s t u : State) (st : Status) (fa : PcWord Geometry.default),
    exec i s = .next t → exec i { s with status := st, faultAddr := fa } = .next u →
    u.acc = t.acc ∧ u.pc = t.pc ∧ u.mem = t.mem

/-- R31 (10_state.md), R152 (41_load_store.md): only `LDA`, `ADD`, `SUB` and reset change `ACC`. -/
def Obligations.OnlyLoadAndArithmeticWriteAcc : Prop :=
  ∀ s t : State, s.phase = .fetch → step s = .next t → t.acc ≠ s.acc →
    s.pins.rst = true ∨ s.fetches = true ∧ ∃ a, a < s.cfg.capacity ∧
      (decode s.cfg.opcodeMap s.fetchedWord = .lda a ∨ decode s.cfg.opcodeMap s.fetchedWord = .add a ∨
        decode s.cfg.opcodeMap s.fetchedWord = .sub a)

/-- R33 (10_state.md), R193 (43_control.md): an instruction leaves `PC` one further, or at the operand of a taken `JNZ`. -/
def Obligations.PcMovesByFetchAndTakenJnzOnly : Prop :=
  ∀ s t : State, s.fetches = true → step s = .next t →
    t.pc = s.pc + 1 ∨ ∃ a, decode s.cfg.opcodeMap s.fetchedWord = .jnz a ∧ s.acc ≠ 0 ∧ t.pc.toNat = a

/-- R35 (10_state.md): `PC` never wraps: a fetch adds 1 as a number and ends at `N` at most, a taken `JNZ` holds at most
`2^ADW - 1`; at any legal widths. -/
def Obligations.PcNeverWraps : Prop :=
  ∀ (g : Geometry) (s : State g) (w : Word g), s.cfg.Legal g →
    (s.pc.toNat < s.cfg.capacity →
        (s.pc + 1).toNat = s.pc.toNat + 1 ∧ (s.pc + 1).toNat ≤ s.cfg.capacity) ∧
      ∀ a, decode s.cfg.opcodeMap w = .jnz a → a ≤ 2 ^ g.ADW - 1 ∧ (jumpTarget g a).toNat = a

/-- R62 (20_memory.md): a step changes a cell only by an `STA` to it; reset does not (R242, 70_reset_and_hazards.md). -/
def Obligations.OnlyStaWritesMemory : Prop :=
  ∀ (s t : State) (b : Nat), s.phase = .fetch → step s = .next t → Memory.read t.mem b ≠ Memory.read s.mem b →
    s.fetches = true ∧ decode s.cfg.opcodeMap s.fetchedWord = .sta b ∧ b < s.cfg.capacity

/-! ### Invariants -/

/-- The state after reset meets the invariant, and its memory is all zeros (R46, R62). The memory's list form, of which the
invariant speaks, is log entry 14. -/
def Obligations.ResetMeetsTheInvariant : Prop :=
  State.reset.Inv ∧ ∀ a, Memory.read State.reset.mem a = 0

/-- Every step keeps the invariant, so R35, R39, R40, R199, R211 and R216 hold of every state a step gives; and it keeps the
parameters, which are fixed for a run (R8, 00_scope.md). Of the invariant, that a stopped core stands in `FETCH` is log
entry 6 (DEDUCED) and the memory's list form log entry 14. -/
def Obligations.StepKeepsTheInvariant : Prop :=
  ∀ s t : State, s.Inv → step s = .next t → t.Inv ∧ t.cfg = s.cfg

/-- Every clock edge keeps the invariant, at any widths, inside an instruction too. One phase a clock edge is log entry 13;
of the invariant, that a stopped core stands in `FETCH` is log entry 6 (DEDUCED) and the memory's list form log entry 14. -/
def Obligations.EdgeKeepsTheInvariant : Prop :=
  ∀ (g : Geometry) (s t : State g), s.Inv → edgeAt s = .next t → t.Inv

/-- Every host action keeps the invariant, booting a core in any condition establishes it, and the host touches no cell of a
running core (R246 to R253, 70_reset_and_hazards.md; R81, 20_memory.md). That the model turns such an access away with the
error `coreRunning` is log entry 7 (DEDUCED): the rules say only that the host never does it. -/
def Obligations.HostActionsKeepTheInvariant : Prop :=
  ∀ (g : Geometry) (s t : State g),
    (s.Inv → (∀ b, (s.setRst b).Inv ∧ (s.setRun b).Inv) ∧ s.pulseStep.Inv ∧
        (∀ a v, s.hostWrite a v = .ok t → t.Inv) ∧ (∀ ws, s.loadProgram ws = .ok t → t.Inv) ∧
        (∀ data, s.writeData data = .ok t → t.Inv)) ∧
      (s.cfg.Legal g → Memory.wf s.cfg.capacity s.mem = true → ∀ program data, s.boot program data = .ok t → t.Inv) ∧
      (s.ready = true → (∀ a, s.hostRead a = .error .coreRunning) ∧ (∀ a v, s.hostWrite a v = .error .coreRunning) ∧
        ∀ ws, s.loadProgram ws = .error .coreRunning)

/-! ### Reset and the host -/

/-- R240, R242 (70_reset_and_hazards.md): an edge with `rst = 1` clears the core in any phase and condition, abandons the
instruction in progress, leaves memory alone, drives no strobe; nothing else leaves the halted or faulted state. -/
def Obligations.ResetClearsTheCore : Prop :=
  (∀ s : State, s.pins.rst = true → s.portDrive = .idle ∧
      ∃ t, edge s = .next t ∧ step s = .next t ∧ t.acc = 0 ∧ t.pc = 0 ∧ t.status.bits = 0 ∧ t.faultAddr = 0 ∧
        t.phase = .fetch ∧ t.mem = s.mem ∧ t.cfg = s.cfg) ∧
    ∀ s t : State, s.live = false → edge s = .next t → t.live = true → s.pins.rst = true

/-- R250 (70_reset_and_hazards.md): with `run = 0` the core waits at a boundary, unchanged and with no strobe, and an
instruction in progress still completes. That a step answers the unchanged state while the core waits, and ends a `step`
pulse, is the model's choice (log entries 3 and 5). -/
def Obligations.RunLowWaitsAtTheBoundary : Prop :=
  ∀ s : State, s.pins.rst = false → s.wasReset = true → s.live = true → s.pins.run = false →
    (s.phase = .fetch → s.pins.step = false → step s = .next s ∧ edge s = .next s ∧ s.portDrive = .idle) ∧
      (s.phase ≠ .fetch → ∃ t u, exec s.decoded u = .next t ∧
        u = { s.dropPulse with phase := .execute } ∧ step s = .next { t with phase := .fetch })

/-- R251 (70_reset_and_hazards.md): a pulse with `run = 0` runs exactly one instruction and the core waits again; a pulse
while `run = 1`, inside an instruction, or while halted or faulted has no effect on the step or the clock edge. That a step
ends the pulse, and that a waiting core answers a next state, is the model's choice (log entries 3 and 5). -/
def Obligations.SingleStepRunsOneInstruction : Prop :=
  (∀ s : State, s.ready = true → s.phase = .fetch → s.pins.run = false →
      ∃ t, step s = .next t ∧ step (s.setRun true) = .next (t.setRun true) ∧
        (t.live = true → t.waiting = true ∧ step t = .next t)) ∧
    ∀ s : State, s.pins.run = true ∨ s.phase ≠ .fetch ∨ s.live = false →
      step s.pulseStep = step s ∧ edge s.pulseStep = edge s

/-- R246 (70_reset_and_hazards.md): while the core is not running, the loader puts word `i` at address `i` and leaves the
other cells alone, or fails with `OutOfBounds` exactly where the program is longer than the memory. -/
def Obligations.LoaderPlacesTheProgram : Prop :=
  ∀ (g : Geometry) (s : State g) (ws : List (Word g)), Memory.wf s.cfg.capacity s.mem = true → s.idle = true →
    (ws.length ≤ s.cfg.capacity → ∃ m, s.loadProgram ws = .ok { s with mem := m } ∧
        ∀ a, Memory.read m a = (ws[a]?).getD (Memory.read s.mem a)) ∧
      (s.cfg.capacity < ws.length → s.loadProgram ws = .error .outOfBounds)

/-- R245, R247, R248 (70_reset_and_hazards.md): booting a core whose memory is new gives the launch state: registers and
status 0, the program at address 0 up, the later of two data words for a cell winning over the earlier and over the
program, every other cell 0. The boot ends with `run = 1`, the first of the two ways R248 gives. -/
def Obligations.BootGivesTheLaunchState : Prop :=
  ∀ (g : Geometry) (s : State g) (program : List (Word g)) (data : List (Nat × Word g)), s.mem = [] →
    program.length ≤ s.cfg.capacity → (∀ c ∈ data, c.1 < s.cfg.capacity) →
    ∃ t, s.boot program data = .ok t ∧ t.acc = 0 ∧ t.pc = 0 ∧ t.status.bits = 0 ∧ t.faultAddr = 0 ∧ t.phase = .fetch ∧
      t.ready = true ∧ ∀ a, Memory.read t.mem a =
        ((data.reverse.find? fun c => c.1 = a).map fun c => c.2).getD ((program[a]?).getD 0)

/-- R70, R71, R72 (20_memory.md): memory after a clock edge is what the port's strobe makes of it, and every strobed address
is a cell of the memory. The fetch reads at `PC` and takes its word from the port; `LDA`, `ADD` and `SUB` in range read at
the operand and use the word the port reads; `STA` in range writes `ACC` there; out of range, in every other execute phase,
in the decode phase and where the core runs nothing there is no access. One phase a clock edge is log entry 13. -/
def Obligations.PortCarriesEveryAccess : Prop :=
  ∀ (g : Geometry) (s t : State g), s.cfg.Legal g → edgeAt s = .next t →
    t.mem = memAfter s.mem s.portDrive ∧
      (∀ a, memAddr s.portDrive = some a → a.toNat < s.cfg.capacity) ∧
      (s.fetches = true → ∃ x, s.portDrive = .read x ∧ x.toNat = s.pc.toNat ∧ s.memRdata = some t.ir) ∧
      (s.ready = true → s.phase = .execute →
        (∀ a, s.decoded = .lda a ∨ s.decoded = .add a ∨ s.decoded = .sub a → a < s.cfg.capacity →
            ∃ x w, s.portDrive = .read x ∧ x.toNat = a ∧ s.memRdata = some w ∧
              (s.decoded = .lda a → t.acc = w) ∧ (s.decoded = .add a → t.acc = s.acc + w) ∧
              (s.decoded = .sub a → t.acc = s.acc - w)) ∧
          (∀ a, s.decoded = .sta a → a < s.cfg.capacity → ∃ x, s.portDrive = .write x s.acc ∧ x.toNat = a) ∧
          (∀ a, s.decoded = .lda a ∨ s.decoded = .add a ∨ s.decoded = .sub a ∨ s.decoded = .sta a →
            s.cfg.capacity ≤ a → s.portDrive = .idle) ∧
          ((∃ a, s.decoded = .jnz a) ∨ s.decoded = .hlt ∨ s.decoded = .invalidOp6 ∨ s.decoded = .invalidOp7 →
            s.portDrive = .idle)) ∧
      (s.phase = .decode ∨ s.ready = false → s.portDrive = .idle)

/-- R39 (10_state.md), R211 (60_exceptions.md): where each field of `STATUS` stands in the word the host reads, and the
numbers of the causes. -/
def Obligations.StatusWordLayout : Prop :=
  (∀ st : Status, st.bits.getLsbD 0 = st.halted ∧ st.bits.getLsbD 1 = st.faulted ∧ st.bits.getLsbD 2 = st.iop ∧
      st.bits.extractLsb' 3 2 = st.cause.code) ∧
    Cause.none.code = 0 ∧ Cause.oobFetch.code = 1 ∧ Cause.oobData.code = 2 ∧ Cause.invalidOpcode.code = 3

/-! ### The assembler -/

/-- R110, R114 (30_encoding.md): an assembled program has one word a line in the same order, each the word of the line's
instruction, which is valid for the memory and is what the word decodes to. -/
def Obligations.AssembledWordsDecodeToTheirLines : Prop :=
  ∀ (g : Geometry) (p : Params) (program : List (List Char)) (ws : List (Word g)), p.Legal g →
    assemble g p program = .ok ws →
    ws.length = program.length ∧ ∀ (k : Nat) (line : List Char), program[k]? = some line →
      ∃ i : Instr, assembleLine p.capacity line = .ok i ∧ i.valid p.capacity = true ∧
        ws[k]? = some (encode g p.opcodeMap i) ∧
        decode p.opcodeMap (encode g p.opcodeMap i) = i

/-- R117 (30_encoding.md): the assembler fails exactly with the error of the first line that fails, and emits no words. That
the failure carries the number of that line, counted from 0, is the model's choice (log entry 15). -/
def Obligations.AssemblerFailsAtTheFirstBadLine : Prop :=
  ∀ (g : Geometry) (p : Params) (program : List (List Char)) (f : AsmFailure),
    assemble g p program = .error f ↔
      ∃ line, program[f.line]? = some line ∧ assembleLine p.capacity line = .error f.error ∧
        ∀ j l, j < f.line → program[j]? = some l → ∃ i, assembleLine p.capacity l = .ok i

/-- R121, R116 (30_encoding.md): assembling the listing of a word gives the instruction the word decodes to, where that
instruction is valid; at the default widths and map. -/
def Obligations.ListingsReassemble : Prop :=
  ∀ (n : Nat) (w : Word Geometry.default), (decode OpcodeMap.default w).valid n = true →
    assembleLine n (listing OpcodeMap.default w) = .ok (decode OpcodeMap.default w)
end

