-- ==== Sys2Proof/Laws/Memory.lean ====
section
/-! SUPPORT. What reading and writing the memory's list do, and that every memory operation keeps its canonical form. -/

namespace Sys2Proof.Machine

variable {g : Geometry}

theorem Memory.wfFrom_cons {n lo k : Nat} {v : Word g} {m : Memory g} :
    Memory.wfFrom n lo ((k, v) :: m) = true ↔ lo ≤ k ∧ k < n ∧ v ≠ 0 ∧ Memory.wfFrom n (k + 1) m = true := by
  simp [Memory.wfFrom, and_assoc]

/-- A lower bound may be lowered. -/
theorem Memory.wfFrom_mono {n lo lo' : Nat} {m : Memory g} (h : Memory.wfFrom n lo m = true) (hl : lo' ≤ lo) :
    Memory.wfFrom n lo' m = true := by
  cases m with
  | nil => rfl
  | cons c m =>
    obtain ⟨k, v⟩ := c
    rw [Memory.wfFrom_cons] at h ⊢
    exact ⟨hl.trans h.1, h.2⟩

/-- Below the first listed address every cell reads as zero. -/
theorem Memory.read_below {n lo a : Nat} {m : Memory g} (h : Memory.wfFrom n lo m = true) (ha : a < lo) :
    Memory.read m a = 0 := by
  induction m generalizing lo with
  | nil => rfl
  | cons c m ih =>
    obtain ⟨k, v⟩ := c
    obtain ⟨h1, -, -, h4⟩ := Memory.wfFrom_cons.1 h
    simp only [Memory.read, if_neg (show ¬k = a by omega)]
    exact ih h4 (by omega)

/-- At and above the capacity every cell reads as zero. -/
theorem Memory.read_above {n lo a : Nat} {m : Memory g} (h : Memory.wfFrom n lo m = true) (ha : n ≤ a) :
    Memory.read m a = 0 := by
  induction m generalizing lo with
  | nil => rfl
  | cons c m ih =>
    obtain ⟨k, v⟩ := c
    obtain ⟨-, h2, -, h4⟩ := Memory.wfFrom_cons.1 h
    simp only [Memory.read, if_neg (show ¬k = a by omega)]
    exact ih h4

theorem Memory.write_wfFrom {n lo a : Nat} {v : Word g} {m : Memory g} (h : Memory.wfFrom n lo m = true)
    (hl : lo ≤ a) (hn : a < n) : Memory.wfFrom n lo (Memory.write m a v) = true := by
  induction m generalizing lo with
  | nil =>
    simp only [Memory.write]
    split
    · rfl
    · rename_i hv
      exact Memory.wfFrom_cons.2 ⟨hl, hn, hv, rfl⟩
  | cons c m ih =>
    obtain ⟨k, x⟩ := c
    obtain ⟨h1, h2, h3, h4⟩ := Memory.wfFrom_cons.1 h
    simp only [Memory.write]
    split
    · split
      · exact h
      · rename_i hak hv
        exact Memory.wfFrom_cons.2 ⟨hl, hn, hv, Memory.wfFrom_cons.2 ⟨hak, h2, h3, h4⟩⟩
    · split
      · rename_i hak
        subst hak
        split
        · exact Memory.wfFrom_mono h4 (by omega)
        · rename_i hv
          exact Memory.wfFrom_cons.2 ⟨hl, hn, hv, h4⟩
      · exact Memory.wfFrom_cons.2 ⟨h1, h2, h3, ih h4 (by omega)⟩

/-- A write inside the memory keeps the canonical form. -/
theorem Memory.write_wf {n a : Nat} {v : Word g} {m : Memory g} (h : Memory.wf n m = true) (hn : a < n) :
    Memory.wf n (Memory.write m a v) = true :=
  Memory.write_wfFrom h (Nat.zero_le a) hn

/-- The memory as created has the canonical form. -/
theorem Memory.nil_wf (n : Nat) : Memory.wf n ([] : Memory g) = true := rfl

/-- A read of the cell just written gives the word written. -/
theorem Memory.read_write_same {n lo a : Nat} {v : Word g} {m : Memory g} (h : Memory.wfFrom n lo m = true) :
    Memory.read (Memory.write m a v) a = v := by
  induction m generalizing lo with
  | nil =>
    simp only [Memory.write]
    split
    · rename_i hv
      exact hv.symm
    · simp [Memory.read]
  | cons c m ih =>
    obtain ⟨k, x⟩ := c
    obtain ⟨-, -, -, h4⟩ := Memory.wfFrom_cons.1 h
    simp only [Memory.write]
    split
    · split
      · rename_i hak hv
        rw [hv]
        exact Memory.read_below (lo := k) (Memory.wfFrom_cons.2 ⟨le_rfl, (Memory.wfFrom_cons.1 h).2⟩) hak
      · simp [Memory.read]
    · split
      · rename_i hak
        subst hak
        split
        · rename_i hv
          rw [hv]
          exact Memory.read_below h4 (by omega)
        · simp [Memory.read]
      · rename_i hne
        simp only [Memory.read, if_neg (Ne.symm hne)]
        exact ih h4

/-- A write leaves every other cell alone, whatever the list. -/
theorem Memory.read_write_other {a b : Nat} {v : Word g} {m : Memory g} (hab : b ≠ a) :
    Memory.read (Memory.write m a v) b = Memory.read m b := by
  induction m with
  | nil =>
    simp only [Memory.write]
    split
    · rfl
    · simp [Memory.read, hab.symm]
  | cons c m ih =>
    obtain ⟨k, x⟩ := c
    simp only [Memory.write]
    split
    · split
      · rfl
      · simp [Memory.read, hab.symm]
    · split
      · rename_i hak
        subst hak
        split <;> simp [Memory.read, hab.symm]
      · simp only [Memory.read]
        split
        · rfl
        · exact ih

/-- The loader's stores keep the canonical form while they stay inside the memory. -/
theorem storeFrom_wf {n k : Nat} {ws : List (Word g)} {m : Memory g} (h : Memory.wf n m = true)
    (hk : k + ws.length ≤ n) : Memory.wf n (storeFrom m k ws) = true := by
  induction ws generalizing k m with
  | nil => exact h
  | cons w ws ih =>
    simp only [List.length_cons] at hk
    exact ih (Memory.write_wf h (by omega)) (by omega)

/-- The loader's stores leave every cell below their first one alone. -/
theorem storeFrom_read_below {k a : Nat} {ws : List (Word g)} {m : Memory g} (ha : a < k) :
    Memory.read (storeFrom m k ws) a = Memory.read m a := by
  induction ws generalizing k m with
  | nil => rfl
  | cons w ws ih =>
    simp only [storeFrom]
    rw [ih (by omega), Memory.read_write_other (by omega)]

/-- `MemWrite` keeps the canonical form. -/
theorem State.memWrite_wf {s t : State g} {a : Nat} {v : Word g} (h : Memory.wf s.cfg.capacity s.mem = true)
    (hw : s.memWrite a v = some t) : Memory.wf t.cfg.capacity t.mem = true := by
  unfold State.memWrite at hw
  split at hw
  · rename_i ha
    cases hw
    exact Memory.write_wf h ha
  · cases hw

/-- The loader keeps the canonical form. -/
theorem State.loadProgram_wf {s t : State g} {ws : List (Word g)} (h : Memory.wf s.cfg.capacity s.mem = true)
    (hl : s.loadProgram ws = .ok t) : Memory.wf t.cfg.capacity t.mem = true := by
  unfold State.loadProgram at hl
  split at hl
  · split at hl
    · cases hl
      exact storeFrom_wf h (by simpa using ‹ws.length ≤ _›)
    · cases hl
  · cases hl

theorem State.reset_mem_wf : Memory.wf State.reset.cfg.capacity State.reset.mem = true := rfl

end Sys2Proof.Machine
end

