-- ==== Sys2Proof/Laws/Opcode.lean ====
section
/-! SUPPORT. What a legal opcode map gives the decoder: six different codes that are all the codes below 6. -/

namespace Sys2Proof.Laws

/-- The six codes are pairwise different numbers. -/
theorem codes_ne {m : OpcodeMap} (h : m.Bijective) :
    (m.lda.val ≠ m.add.val ∧ m.lda.val ≠ m.sub.val ∧ m.lda.val ≠ m.jnz.val ∧ m.lda.val ≠ m.sta.val ∧
        m.lda.val ≠ m.hlt.val) ∧
      (m.add.val ≠ m.sub.val ∧ m.add.val ≠ m.jnz.val ∧ m.add.val ≠ m.sta.val ∧ m.add.val ≠ m.hlt.val) ∧
      (m.sub.val ≠ m.jnz.val ∧ m.sub.val ≠ m.sta.val ∧ m.sub.val ≠ m.hlt.val) ∧
      (m.jnz.val ≠ m.sta.val ∧ m.jnz.val ≠ m.hlt.val) ∧ m.sta.val ≠ m.hlt.val := by
  simpa [OpcodeMap.Bijective, Fin.ext_iff, and_assoc] using h

/-- Every number below 6 is one of the six codes. -/
theorem codes_cover {m : OpcodeMap} (h : m.Bijective) {x : Nat} (hx : x < 6) :
    x = m.lda.val ∨ x = m.add.val ∨ x = m.sub.val ∨ x = m.jnz.val ∨ x = m.sta.val ∨ x = m.hlt.val := by
  have hu : [m.lda, m.add, m.sub, m.jnz, m.sta, m.hlt].toFinset = Finset.univ :=
    Finset.eq_univ_of_card _ (by rw [List.toFinset_card_of_nodup h]; rfl)
  have hm : (⟨x, hx⟩ : Fin 6) ∈ [m.lda, m.add, m.sub, m.jnz, m.sta, m.hlt].toFinset := hu ▸ Finset.mem_univ _
  simpa [Fin.ext_iff] using hm

/-- A code fits the three bits of the `op` field. -/
theorem codeOf_lt (m : OpcodeMap) (i : Instr) : codeOf m i < 8 := by
  cases i <;> simp only [codeOf] <;> omega

end Sys2Proof.Laws
end

