-- ==== Sys2Proof/Laws/State.lean ====
section
/-! SUPPORT. One lemma for each field of the state under each named update. -/

namespace Sys2Proof.Machine

variable {g : Geometry} (s : State g)

/-! `State.setAcc` -/

@[simp] theorem State.setAcc_cfg (v : Word g) : (s.setAcc v).cfg = s.cfg := rfl
@[simp] theorem State.setAcc_acc (v : Word g) : (s.setAcc v).acc = v := rfl
@[simp] theorem State.setAcc_pc (v : Word g) : (s.setAcc v).pc = s.pc := rfl
@[simp] theorem State.setAcc_status (v : Word g) : (s.setAcc v).status = s.status := rfl
@[simp] theorem State.setAcc_faultAddr (v : Word g) : (s.setAcc v).faultAddr = s.faultAddr := rfl
@[simp] theorem State.setAcc_ir (v : Word g) : (s.setAcc v).ir = s.ir := rfl
@[simp] theorem State.setAcc_phase (v : Word g) : (s.setAcc v).phase = s.phase := rfl
@[simp] theorem State.setAcc_mem (v : Word g) : (s.setAcc v).mem = s.mem := rfl
@[simp] theorem State.setAcc_pins (v : Word g) : (s.setAcc v).pins = s.pins := rfl
@[simp] theorem State.setAcc_wasReset (v : Word g) : (s.setAcc v).wasReset = s.wasReset := rfl

/-! `State.setPc` -/

@[simp] theorem State.setPc_cfg (p : PcWord g) : (s.setPc p).cfg = s.cfg := rfl
@[simp] theorem State.setPc_acc (p : PcWord g) : (s.setPc p).acc = s.acc := rfl
@[simp] theorem State.setPc_pc (p : PcWord g) : (s.setPc p).pc = p := rfl
@[simp] theorem State.setPc_status (p : PcWord g) : (s.setPc p).status = s.status := rfl
@[simp] theorem State.setPc_faultAddr (p : PcWord g) : (s.setPc p).faultAddr = s.faultAddr := rfl
@[simp] theorem State.setPc_ir (p : PcWord g) : (s.setPc p).ir = s.ir := rfl
@[simp] theorem State.setPc_phase (p : PcWord g) : (s.setPc p).phase = s.phase := rfl
@[simp] theorem State.setPc_mem (p : PcWord g) : (s.setPc p).mem = s.mem := rfl
@[simp] theorem State.setPc_pins (p : PcWord g) : (s.setPc p).pins = s.pins := rfl
@[simp] theorem State.setPc_wasReset (p : PcWord g) : (s.setPc p).wasReset = s.wasReset := rfl

/-! `State.halt` -/

@[simp] theorem State.halt_cfg : s.halt.cfg = s.cfg := rfl
@[simp] theorem State.halt_acc : s.halt.acc = s.acc := rfl
@[simp] theorem State.halt_pc : s.halt.pc = s.pc := rfl
@[simp] theorem State.halt_status : s.halt.status = { s.status with halted := true } := rfl
@[simp] theorem State.halt_faultAddr : s.halt.faultAddr = s.faultAddr := rfl
@[simp] theorem State.halt_ir : s.halt.ir = s.ir := rfl
@[simp] theorem State.halt_phase : s.halt.phase = s.phase := rfl
@[simp] theorem State.halt_mem : s.halt.mem = s.mem := rfl
@[simp] theorem State.halt_pins : s.halt.pins = s.pins := rfl
@[simp] theorem State.halt_wasReset : s.halt.wasReset = s.wasReset := rfl

/-! `State.reportInvalid` -/

@[simp] theorem State.reportInvalid_cfg : s.reportInvalid.cfg = s.cfg := rfl
@[simp] theorem State.reportInvalid_acc : s.reportInvalid.acc = s.acc := rfl
@[simp] theorem State.reportInvalid_pc : s.reportInvalid.pc = s.pc := rfl
@[simp] theorem State.reportInvalid_status : s.reportInvalid.status = { s.status with iop := true } := rfl
@[simp] theorem State.reportInvalid_faultAddr : s.reportInvalid.faultAddr = s.faultAddr := rfl
@[simp] theorem State.reportInvalid_ir : s.reportInvalid.ir = s.ir := rfl
@[simp] theorem State.reportInvalid_phase : s.reportInvalid.phase = s.phase := rfl
@[simp] theorem State.reportInvalid_mem : s.reportInvalid.mem = s.mem := rfl
@[simp] theorem State.reportInvalid_pins : s.reportInvalid.pins = s.pins := rfl
@[simp] theorem State.reportInvalid_wasReset : s.reportInvalid.wasReset = s.wasReset := rfl

/-! `State.raiseFault` -/

@[simp] theorem State.raiseFault_cfg (c : Cause) (x : Nat) : (s.raiseFault c x).cfg = s.cfg := rfl
@[simp] theorem State.raiseFault_acc (c : Cause) (x : Nat) : (s.raiseFault c x).acc = s.acc := rfl
@[simp] theorem State.raiseFault_pc (c : Cause) (x : Nat) : (s.raiseFault c x).pc = s.pc := rfl
@[simp] theorem State.raiseFault_status (c : Cause) (x : Nat) : (s.raiseFault c x).status = { s.status with faulted := true, cause := c } := rfl
@[simp] theorem State.raiseFault_faultAddr (c : Cause) (x : Nat) : (s.raiseFault c x).faultAddr = BitVec.ofNat g.pcw x := rfl
@[simp] theorem State.raiseFault_ir (c : Cause) (x : Nat) : (s.raiseFault c x).ir = s.ir := rfl
@[simp] theorem State.raiseFault_phase (c : Cause) (x : Nat) : (s.raiseFault c x).phase = s.phase := rfl
@[simp] theorem State.raiseFault_mem (c : Cause) (x : Nat) : (s.raiseFault c x).mem = s.mem := rfl
@[simp] theorem State.raiseFault_pins (c : Cause) (x : Nat) : (s.raiseFault c x).pins = s.pins := rfl
@[simp] theorem State.raiseFault_wasReset (c : Cause) (x : Nat) : (s.raiseFault c x).wasReset = s.wasReset := rfl

/-! `State.coreReset` -/

@[simp] theorem State.coreReset_cfg : s.coreReset.cfg = s.cfg := rfl
@[simp] theorem State.coreReset_acc : s.coreReset.acc = 0 := rfl
@[simp] theorem State.coreReset_pc : s.coreReset.pc = 0 := rfl
@[simp] theorem State.coreReset_status : s.coreReset.status = Status.clear := rfl
@[simp] theorem State.coreReset_faultAddr : s.coreReset.faultAddr = 0 := rfl
@[simp] theorem State.coreReset_ir : s.coreReset.ir = BitVec.ofNat _ irAfterReset := rfl
@[simp] theorem State.coreReset_phase : s.coreReset.phase = .fetch := rfl
@[simp] theorem State.coreReset_mem : s.coreReset.mem = s.mem := rfl
@[simp] theorem State.coreReset_pins : s.coreReset.pins = s.pins := rfl
@[simp] theorem State.coreReset_wasReset : s.coreReset.wasReset = true := rfl

/-! `State.decodePhase` -/

@[simp] theorem State.decodePhase_cfg : s.decodePhase.cfg = s.cfg := rfl
@[simp] theorem State.decodePhase_acc : s.decodePhase.acc = s.acc := rfl
@[simp] theorem State.decodePhase_pc : s.decodePhase.pc = s.pc := rfl
@[simp] theorem State.decodePhase_status : s.decodePhase.status = s.status := rfl
@[simp] theorem State.decodePhase_faultAddr : s.decodePhase.faultAddr = s.faultAddr := rfl
@[simp] theorem State.decodePhase_ir : s.decodePhase.ir = s.ir := rfl
@[simp] theorem State.decodePhase_phase : s.decodePhase.phase = .execute := rfl
@[simp] theorem State.decodePhase_mem : s.decodePhase.mem = s.mem := rfl
@[simp] theorem State.decodePhase_pins : s.decodePhase.pins = s.pins := rfl
@[simp] theorem State.decodePhase_wasReset : s.decodePhase.wasReset = s.wasReset := rfl

/-! `State.dropPulse` -/

@[simp] theorem State.dropPulse_cfg : s.dropPulse.cfg = s.cfg := rfl
@[simp] theorem State.dropPulse_acc : s.dropPulse.acc = s.acc := rfl
@[simp] theorem State.dropPulse_pc : s.dropPulse.pc = s.pc := rfl
@[simp] theorem State.dropPulse_status : s.dropPulse.status = s.status := rfl
@[simp] theorem State.dropPulse_faultAddr : s.dropPulse.faultAddr = s.faultAddr := rfl
@[simp] theorem State.dropPulse_ir : s.dropPulse.ir = s.ir := rfl
@[simp] theorem State.dropPulse_phase : s.dropPulse.phase = s.phase := rfl
@[simp] theorem State.dropPulse_mem : s.dropPulse.mem = s.mem := rfl
@[simp] theorem State.dropPulse_pins : s.dropPulse.pins = { s.pins with step := false } := rfl
@[simp] theorem State.dropPulse_wasReset : s.dropPulse.wasReset = s.wasReset := rfl

/-! `State.setRst` -/

@[simp] theorem State.setRst_cfg (b : Bool) : (s.setRst b).cfg = s.cfg := rfl
@[simp] theorem State.setRst_acc (b : Bool) : (s.setRst b).acc = s.acc := rfl
@[simp] theorem State.setRst_pc (b : Bool) : (s.setRst b).pc = s.pc := rfl
@[simp] theorem State.setRst_status (b : Bool) : (s.setRst b).status = s.status := rfl
@[simp] theorem State.setRst_faultAddr (b : Bool) : (s.setRst b).faultAddr = s.faultAddr := rfl
@[simp] theorem State.setRst_ir (b : Bool) : (s.setRst b).ir = s.ir := rfl
@[simp] theorem State.setRst_phase (b : Bool) : (s.setRst b).phase = s.phase := rfl
@[simp] theorem State.setRst_mem (b : Bool) : (s.setRst b).mem = s.mem := rfl
@[simp] theorem State.setRst_pins (b : Bool) : (s.setRst b).pins = { s.pins with rst := b } := rfl
@[simp] theorem State.setRst_wasReset (b : Bool) : (s.setRst b).wasReset = s.wasReset := rfl

/-! `State.setRun` -/

@[simp] theorem State.setRun_cfg (b : Bool) : (s.setRun b).cfg = s.cfg := rfl
@[simp] theorem State.setRun_acc (b : Bool) : (s.setRun b).acc = s.acc := rfl
@[simp] theorem State.setRun_pc (b : Bool) : (s.setRun b).pc = s.pc := rfl
@[simp] theorem State.setRun_status (b : Bool) : (s.setRun b).status = s.status := rfl
@[simp] theorem State.setRun_faultAddr (b : Bool) : (s.setRun b).faultAddr = s.faultAddr := rfl
@[simp] theorem State.setRun_ir (b : Bool) : (s.setRun b).ir = s.ir := rfl
@[simp] theorem State.setRun_phase (b : Bool) : (s.setRun b).phase = s.phase := rfl
@[simp] theorem State.setRun_mem (b : Bool) : (s.setRun b).mem = s.mem := rfl
@[simp] theorem State.setRun_pins (b : Bool) : (s.setRun b).pins = { s.pins with run := b } := rfl
@[simp] theorem State.setRun_wasReset (b : Bool) : (s.setRun b).wasReset = s.wasReset := rfl

/-! `State.pulseStep` -/

@[simp] theorem State.pulseStep_cfg : s.pulseStep.cfg = s.cfg := rfl
@[simp] theorem State.pulseStep_acc : s.pulseStep.acc = s.acc := rfl
@[simp] theorem State.pulseStep_pc : s.pulseStep.pc = s.pc := rfl
@[simp] theorem State.pulseStep_status : s.pulseStep.status = s.status := rfl
@[simp] theorem State.pulseStep_faultAddr : s.pulseStep.faultAddr = s.faultAddr := rfl
@[simp] theorem State.pulseStep_ir : s.pulseStep.ir = s.ir := rfl
@[simp] theorem State.pulseStep_phase : s.pulseStep.phase = s.phase := rfl
@[simp] theorem State.pulseStep_mem : s.pulseStep.mem = s.mem := rfl
@[simp] theorem State.pulseStep_pins : s.pulseStep.pins = { s.pins with step := true } := rfl
@[simp] theorem State.pulseStep_wasReset : s.pulseStep.wasReset = s.wasReset := rfl

end Sys2Proof.Machine
end

