-- ==== Sys2Proof/Laws/Ops.lean ====
section
/-! SUPPORT. For each shared operation, what it answers, so that a proof cites it instead of unfolding it. -/

namespace Sys2Proof.Machine

variable {g : Geometry} {s : State g}

@[simp] theorem State.memRead_of_lt {a : Nat} (h : a < s.cfg.capacity) : s.memRead a = some (Memory.read s.mem a) :=
  if_pos h

@[simp] theorem State.memRead_of_le {a : Nat} (h : s.cfg.capacity ≤ a) : s.memRead a = none :=
  if_neg (Nat.not_lt.2 h)

@[simp] theorem State.memWrite_of_lt {a : Nat} {v : Word g} (h : a < s.cfg.capacity) :
    s.memWrite a v = some { s with mem := Memory.write s.mem a v } :=
  if_pos h

@[simp] theorem State.memWrite_of_le {a : Nat} {v : Word g} (h : s.cfg.capacity ≤ a) : s.memWrite a v = none :=
  if_neg (Nat.not_lt.2 h)

/-- Reading an operand goes on with the cell's word, or raises `OOB_DATA`. -/
theorem State.withOperand_cases (s : State g) (a : Nat) (k : Word g → State g) :
    (a < s.cfg.capacity ∧ s.withOperand a k = k (Memory.read s.mem a)) ∨
      (s.cfg.capacity ≤ a ∧ s.withOperand a k = s.raiseFault .oobData a) := by
  rcases Nat.lt_or_ge a s.cfg.capacity with h | h
  · exact .inl ⟨h, by simp [State.withOperand, h]⟩
  · exact .inr ⟨h, by simp [State.withOperand, h]⟩

/-- Storing to an operand overwrites the cell, or raises `OOB_DATA`. -/
theorem State.storeOperand_cases (s : State g) (a : Nat) (v : Word g) :
    (a < s.cfg.capacity ∧ s.storeOperand a v = { s with mem := Memory.write s.mem a v }) ∨
      (s.cfg.capacity ≤ a ∧ s.storeOperand a v = s.raiseFault .oobData a) := by
  rcases Nat.lt_or_ge a s.cfg.capacity with h | h
  · exact .inl ⟨h, by simp [State.storeOperand, h]⟩
  · exact .inr ⟨h, by simp [State.storeOperand, h]⟩

/-- An invalid opcode reports or faults, by the policy. -/
theorem State.invalidOpcode_cases (s : State g) :
    (s.cfg.policy = .lenient ∧ s.invalidOpcode = s.reportInvalid) ∨
      (s.cfg.policy = .strict ∧ s.invalidOpcode = s.raiseFault .invalidOpcode (s.pc - 1).toNat) := by
  unfold State.invalidOpcode
  cases s.cfg.policy <;> simp

/-- The ALU's sum as a number (spec/42_arithmetic.md R170). -/
theorem aluAdd_toNat (x y : Word g) : (aluAdd x y).toNat = (x.toNat + y.toNat) % 2 ^ g.W := by
  simp [aluAdd]

/-- The ALU's difference as a number (42_arithmetic.md R172). -/
theorem aluSub_toNat (x y : Word g) : (aluSub x y).toNat = (x.toNat + (2 ^ g.W - y.toNat)) % 2 ^ g.W := by
  simp [aluSub, BitVec.toNat_sub, Nat.add_comm]

/-- `JNZ`'s test. -/
theorem isNonZero_iff (x : Word g) : isNonZero x = true ↔ x ≠ 0 := by
  simp [isNonZero]

/-- The target of a jump whose operand fits the `addr` field. -/
theorem jumpTarget_toNat {a : Nat} (h : a < 2 ^ g.ADW) : (jumpTarget g a).toNat = a := by
  simp only [jumpTarget, BitVec.toNat_ofNat]
  exact Nat.mod_eq_of_lt (h.trans (Nat.pow_lt_pow_right (by decide) (Nat.lt_succ_self _)))

/-- The fetch reads the instruction and moves `PC` past it, or raises `OOB_FETCH`. -/
theorem State.fetchPhase_cases (s : State g) :
    (s.pc.toNat < s.cfg.capacity ∧
        s.fetchPhase = { s with ir := Memory.read s.mem s.pc.toNat, pc := s.pc + 1, phase := .decode }) ∨
      (s.cfg.capacity ≤ s.pc.toNat ∧ s.fetchPhase = s.raiseFault .oobFetch s.pc.toNat) := by
  rcases Nat.lt_or_ge s.pc.toNat s.cfg.capacity with h | h
  · exact .inl ⟨h, by simp [State.fetchPhase, h]⟩
  · exact .inr ⟨h, by simp [State.fetchPhase, h]⟩

end Sys2Proof.Machine
end

