-- ==== Sys2Proof/Laws/PerInstr.lean ====
section
/-! SUPPORT. Facts about every instruction as syntax, one lemma a constructor. -/

namespace Sys2Proof.Laws

/-- The `op` field of an encoded word is the code's three bits (spec/30_encoding.md R102). -/
theorem opField_encode (g : Geometry) (m : OpcodeMap) (i : Instr) :
    opField (encode g m i) = BitVec.ofNat opw (codeOf m i) := by
  have hf := g.fits
  apply BitVec.eq_of_getLsbD_eq
  intro k hk
  simp only [opField, encode, BitVec.getLsbD_extractLsb', BitVec.getLsbD_setWidth, BitVec.getLsbD_append, hk,
    decide_true, Bool.true_and]
  have hk' : k < opw := hk
  rw [decide_eq_true (show g.W - opw + k < g.W by omega), if_neg (show ¬ g.W - opw + k < g.ADW by omega),
    if_neg (show ¬ g.W - opw + k - g.ADW < g.W - opw - g.ADW by omega),
    show g.W - opw + k - g.ADW - (g.W - opw - g.ADW) = k by omega, Bool.true_and]

/-- The operand field of an encoded word is the operand, where it fits the field (R102). -/
theorem operandField_encode (g : Geometry) (m : OpcodeMap) (i : Instr) (h : i.operand < 2 ^ g.ADW) :
    (operandField (encode g m i)).toNat = i.operand := by
  have hf := g.fits
  have hx : (encode g m i).extractLsb' 0 g.ADW = BitVec.ofNat g.ADW i.operand := by
    apply BitVec.eq_of_getLsbD_eq
    intro k hk
    simp only [encode, BitVec.getLsbD_extractLsb', BitVec.getLsbD_setWidth, BitVec.getLsbD_append, hk, decide_true,
      Bool.true_and, Nat.zero_add]
    rw [decide_eq_true (show k < g.W by omega), if_pos trivial, Bool.true_and]
  simp only [operandField, hx, BitVec.toNat_setWidth, BitVec.toNat_ofNat, Nat.mod_eq_of_lt h]
  exact Nat.mod_eq_of_lt (h.trans (Nat.pow_lt_pow_right (by decide) (Nat.lt_succ_self _)))

/-- The operand of a well-formed instruction fits the `addr` field. -/
theorem operand_lt_of_wellFormed {g : Geometry} {i : Instr} (h : i.wellFormed g = true) : i.operand < 2 ^ g.ADW := by
  cases i <;> simp_all [Instr.wellFormed, Instr.operand]

namespace EncodeFields

/-- Encoding a well-formed instruction puts its code in the `op` field and its operand in the `addr` field, at any widths
and under any map (R91, R102). -/
def Statement (i : Instr) : Prop :=
  ∀ (g : Geometry) (m : OpcodeMap), i.wellFormed g = true →
    opField (encode g m i) = BitVec.ofNat opw (codeOf m i) ∧ (operandField (encode g m i)).toNat = i.operand

theorem lda (a : Nat) : Statement (.lda a) := fun g m h =>
  ⟨opField_encode g m _, operandField_encode g m _ (operand_lt_of_wellFormed h)⟩

theorem add (a : Nat) : Statement (.add a) := fun g m h =>
  ⟨opField_encode g m _, operandField_encode g m _ (operand_lt_of_wellFormed h)⟩

theorem sub (a : Nat) : Statement (.sub a) := fun g m h =>
  ⟨opField_encode g m _, operandField_encode g m _ (operand_lt_of_wellFormed h)⟩

theorem jnz (a : Nat) : Statement (.jnz a) := fun g m h =>
  ⟨opField_encode g m _, operandField_encode g m _ (operand_lt_of_wellFormed h)⟩

theorem sta (a : Nat) : Statement (.sta a) := fun g m h =>
  ⟨opField_encode g m _, operandField_encode g m _ (operand_lt_of_wellFormed h)⟩

theorem hlt : Statement .hlt := fun g m h =>
  ⟨opField_encode g m _, operandField_encode g m _ (operand_lt_of_wellFormed h)⟩

theorem invalidOp6 : Statement .invalidOp6 := fun g m h =>
  ⟨opField_encode g m _, operandField_encode g m _ (operand_lt_of_wellFormed h)⟩

theorem invalidOp7 : Statement .invalidOp7 := fun g m h =>
  ⟨opField_encode g m _, operandField_encode g m _ (operand_lt_of_wellFormed h)⟩

end EncodeFields

end Sys2Proof.Laws
end

