-- ==== Sys2Proof/Laws/Step.lean ====
section
/-! SUPPORT. Everything one step and one clock edge can do, said once, for any execute phase. -/

namespace Sys2Proof.Machine

variable {g : Geometry} {ex : Instr → State g → Result g} {s t : State g}

/-- The execute phase answers what the instruction answers, with `PHASE` back at `FETCH`. -/
theorem executePhase_next (h : executePhase ex s = .next t) :
    ∃ u, ex s.decoded s = .next u ∧ t = { u with phase := .fetch } := by
  unfold executePhase at h
  cases hx : ex s.decoded s with
  | next u =>
    rw [hx] at h
    simp only [Host.Outcome.next.injEq] at h
    exact ⟨u, rfl, h.symm⟩
  | fault r => simp [hx] at h
  | refused r => simp [hx] at h

/-- Completing an instruction is the execute phase from one of the three phases, or the fault of the fetch. -/
theorem completeInstr_cases (ex : Instr → State g → Result g) (s : State g) :
    (s.phase = .fetch ∧ s.pc.toNat < s.cfg.capacity ∧
        completeInstr ex s = executePhase ex s.fetchPhase.decodePhase) ∨
      (s.phase = .fetch ∧ s.cfg.capacity ≤ s.pc.toNat ∧
        completeInstr ex s = .next (s.raiseFault .oobFetch s.pc.toNat)) ∨
      (s.phase = .decode ∧ completeInstr ex s = executePhase ex s.decodePhase) ∨
      (s.phase = .execute ∧ completeInstr ex s = executePhase ex s) := by
  unfold completeInstr
  cases hp : s.phase with
  | fetch =>
    rcases s.fetchPhase_cases with ⟨h, -⟩ | ⟨h, hf⟩
    · exact .inl ⟨rfl, h, by simp [h]⟩
    · exact .inr (.inl ⟨rfl, h, by simp [hf, Nat.not_lt.2 h]⟩)
  | decode => exact .inr (.inr (.inl ⟨rfl, rfl⟩))
  | execute => exact .inr (.inr (.inr ⟨rfl, rfl⟩))

/-- A step resets the core, stops before the first reset, stops where the run is over, waits, or completes an
instruction. -/
theorem stepWith_cases (ex : Instr → State g → Result g) (s : State g) :
    (s.pins.rst = true ∧ stepWith ex s = .next s.dropPulse.coreReset) ∨
      (s.pins.rst = false ∧ s.wasReset = false ∧ stepWith ex s = .fault .beforeFirstReset) ∨
      (s.pins.rst = false ∧ s.wasReset = true ∧ s.live = false ∧ stepWith ex s = .fault s.stopReason) ∨
      (s.pins.rst = false ∧ s.wasReset = true ∧ s.live = true ∧ s.waiting = true ∧ stepWith ex s = .next s) ∨
      (s.ready = true ∧ stepWith ex s = completeInstr ex s.dropPulse) := by
  unfold stepWith State.ready
  cases s.pins.rst <;> cases s.wasReset <;> cases s.live <;> cases s.waiting <;> simp

/-- A clock edge does as a step does, but for two cases: it holds a stopped core, and it runs one phase of an
instruction. -/
theorem edgeWith_cases (ex : Instr → State g → Result g) (s : State g) :
    (s.pins.rst = true ∧ edgeWith ex s = .next s.dropPulse.coreReset) ∨
      (s.pins.rst = false ∧ s.wasReset = false ∧ edgeWith ex s = .fault .beforeFirstReset) ∨
      (s.pins.rst = false ∧ s.wasReset = true ∧ s.live = false ∧ edgeWith ex s = .next s.dropPulse) ∨
      (s.pins.rst = false ∧ s.wasReset = true ∧ s.live = true ∧ s.waiting = true ∧ edgeWith ex s = .next s) ∨
      (s.ready = true ∧ s.phase = .fetch ∧ edgeWith ex s = .next s.dropPulse.fetchPhase) ∨
      (s.ready = true ∧ s.phase = .decode ∧ edgeWith ex s = .next s.dropPulse.decodePhase) ∨
      (s.ready = true ∧ s.phase = .execute ∧ edgeWith ex s = executePhase ex s.dropPulse) := by
  unfold edgeWith State.ready
  cases s.pins.rst <;> cases s.wasReset <;> cases s.live <;> cases s.waiting <;> cases s.phase <;> simp

/-- The run of a halted or faulted core is over: the step has no next state (40_cycle.md R139). -/
theorem stepWith_ended (h : s.ended = true) : stepWith ex s = .fault s.stopReason := by
  simp only [State.ended, Bool.and_eq_true, Bool.not_eq_true'] at h
  simp [stepWith, h]

/-- The clock goes on after the run: an edge holds the state (43_control.md R196, 60_exceptions.md R213). -/
theorem edgeWith_ended (h : s.ended = true) : edgeWith ex s = .next s.dropPulse := by
  simp only [State.ended, Bool.and_eq_true, Bool.not_eq_true'] at h
  simp [edgeWith, h]

/-- A run of one more step is the step and then the run. -/
theorem run_succ {s t : State} (k : Nat) (h : step s = .next t) :
    Host.Core.run Sys2Proof.core (k + 1) s = Host.Core.run Sys2Proof.core k t := by
  have hc : Sys2Proof.core.step s = .next t := h
  simp only [Host.Core.run, hc]

/-- The machine at any widths has the machine at the default widths as its instance. -/
theorem execAt_eq_exec (i : Instr) (s : State) : execAt i s = exec i s := by
  cases i <;> rfl

end Sys2Proof.Machine
end

