-- ==== Sys2Proof/Tests/Slice0.lean ====
section
/-! SUPPORT. Small tests with the values of spec/95_test_vectors.md, and for each statement that has hypotheses a state and
operands that meet them. -/

namespace Sys2Proof.Tests

open Sys2Proof.Machine

/-! ### Helpers -/

/-- The state after reset with other values in `ACC` and `PC` and the listed cells (rising addresses, no zero word). -/
def start (acc pc : Nat) (cells : List (Nat × Nat)) : State :=
  { State.reset with
    acc := BitVec.ofNat _ acc
    pc := BitVec.ofNat _ pc
    mem := cells.map fun c => (c.1, BitVec.ofNat _ c.2) }

/-- The same under the policy `STRICT`. -/
def strict (s : State) : State := { s with cfg := { s.cfg with policy := .strict } }

/-- The state an outcome holds, or the first state where there is none. -/
def outcomeOr (s : State) : Result Geometry.default → State
  | .next t => t
  | .fault _ => s
  | .refused _ => s

/-- The state after one step. -/
def after (s : State) : State := outcomeOr s (step s)

/-- `ACC`, `PC`, `STATUS` and `FAULT_ADDR` after one step. -/
def regs (s : State) : Nat × Nat × Nat × Nat :=
  let o := (after s).outputs
  (o.accOut.toNat, o.pcOut.toNat, o.statusOut.toNat, o.faultAddrOut.toNat)

/-- One cell after one step. -/
def cell (s : State) (a : Nat) : Nat := (Memory.read (after s).mem a).toNat

/-- Ten-bit words with two unused bits, for the statements about any widths. -/
abbrev wide : Geometry := { W := 10, ADW := 5, adw_pos := by decide, fits := by decide }

/-! ### WellFormed: an ill-formed term for each check -/

theorem test_illformed_lda : (Instr.lda 32).wellFormed Geometry.default = false := by decide
theorem test_illformed_add : (Instr.add 32).wellFormed Geometry.default = false := by decide
theorem test_illformed_sub : (Instr.sub 32).wellFormed Geometry.default = false := by decide
theorem test_illformed_jnz : (Instr.jnz 32).wellFormed Geometry.default = false := by decide
theorem test_illformed_sta : (Instr.sta 32).wellFormed Geometry.default = false := by decide
theorem test_invalid_operand_lda : (Instr.lda 20).valid 20 = false := by decide
theorem test_invalid_operand_add : (Instr.add 20).valid 20 = false := by decide
theorem test_invalid_operand_sub : (Instr.sub 20).valid 20 = false := by decide
theorem test_invalid_operand_jnz : (Instr.jnz 20).valid 20 = false := by decide
theorem test_invalid_operand_sta : (Instr.sta 20).valid 20 = false := by decide
theorem test_invalid_opcodes : (Instr.invalidOp6).valid 20 = false ∧ (Instr.invalidOp7).valid 20 = false := by decide

/-- Illegal parameters are refused one by one: no cell, more cells than the field reaches, a map with a code twice. -/
theorem test_illegal_params :
    ¬({ Params.default with capacity := 0 } : Params).Legal Geometry.default ∧
      ¬({ Params.default with capacity := 33 } : Params).Legal Geometry.default ∧
      ¬({ Params.default with opcodeMap := { OpcodeMap.default with sta := 3 } } : Params).Legal Geometry.default := by
  decide

/-! ### Decoding: a word written out bit by bit for every constructor (30_encoding.md R93; 95_test_vectors.md 2.1) -/

theorem test_decode_lda : decodeTableWord 8 0b00010100 = some (.lda 20) := by decide
theorem test_decode_add : decodeTableWord 8 0b00101010 = some (.add 10) := by decide
theorem test_decode_sub : decodeTableWord 8 0b01010000 = some (.sub 16) := by decide
theorem test_decode_jnz : decodeTableWord 8 0b01111001 = some (.jnz 25) := by decide
theorem test_decode_sta : decodeTableWord 8 0b10011111 = some (.sta 31) := by decide
theorem test_decode_hlt : decodeTableWord 8 0b10111111 = some .hlt := by decide
theorem test_decode_invalid6 : decodeTableWord 8 0b11000000 = some .invalidOp6 := by decide
theorem test_decode_invalid7 : decodeTableWord 8 0b11111111 = some .invalidOp7 := by decide

/-- Another legal map: `STA` 3 and `JNZ` 4 (the other order of 90_conflicts.md C1). -/
theorem test_decode_other_map :
    decode (g := Geometry.default) { OpcodeMap.default with sta := 3, jnz := 4 } 0x62 = .sta 2 := by decide

/-- R96: bits 6 and 5 of a ten-bit word are unused. -/
theorem test_decode_wide : decode (g := wide) OpcodeMap.default 0b1001100011 = .sta 3 := by decide

/-- R102 and 95_test_vectors.md L1-4. -/
theorem test_encode :
    encode Geometry.default OpcodeMap.default (.lda 15) = 0x0F ∧
      encode Geometry.default OpcodeMap.default (.jnz 2) = 0x62 ∧
      encode Geometry.default OpcodeMap.default (.sta 19) = 0x93 := by decide

/-! ### One step of each instruction (95_test_vectors.md 2.3 to 2.8) -/

theorem test_lda : regs (start 0 0 [(0, 0x13), (19, 0xFF)]) = (0xFF, 1, 0, 0) := by decide
theorem test_lda_out_of_range : regs (start 9 2 [(2, 0x14)]) = (9, 3, 0x12, 20) := by decide
theorem test_sta : regs (start 0xA0 4 [(4, 0x84)]) = (0xA0, 5, 0, 0) ∧ cell (start 0xA0 4 [(4, 0x84)]) 4 = 0xA0 := by
  decide
theorem test_sta_out_of_range :
    regs (start 3 0 [(0, 0x94)]) = (3, 1, 0x12, 20) ∧ (after (start 3 0 [(0, 0x94)])).mem = [(0, 0x94)] := by decide
theorem test_add_wraps : regs (start 0xFF 0 [(0, 0x2A), (10, 0xFF)]) = (0xFE, 1, 0, 0) := by decide
theorem test_add_out_of_range : regs (start 0 0 [(0, 0x34)]) = (0, 1, 0x12, 20) := by decide
theorem test_sub_wraps : regs (start 3 0 [(0, 0x50), (16, 250)]) = (9, 1, 0, 0) := by decide
theorem test_sub_own_encoding : regs (start 0 4 [(4, 0x44)]) = (0x100 - 0x44, 5, 0, 0) := by decide
theorem test_jnz_taken : regs (start 0x80 8 [(8, 0x62)]) = (0x80, 2, 0, 0) := by decide
theorem test_jnz_not_taken : regs (start 0 19 [(19, 0x60)]) = (0, 20, 0, 0) := by decide
theorem test_hlt : regs (start 0 9 [(9, 0xA0)]) = (0, 10, 1, 0) := by decide
theorem test_hlt_field_ignored : regs (start 0 3 [(3, 0xA7)]) = (0, 4, 1, 0) := by decide
/-- 40_cycle.md R138, R139: a halted or faulted state has no step; 70_reset_and_hazards.md R240: but reset leaves it. -/
theorem test_stopped_has_no_step :
    step (after (start 0 9 [(9, 0xA0)])) = .fault .halted ∧
      step (after (start 0 20 [])) = .fault (.faulted .oobFetch) ∧
      regs ((after (start 0 20 [])).setRst true) = (0, 0, 0, 0) := ⟨rfl, rfl, by decide⟩
theorem test_invalid6_lenient : regs (start 7 4 [(4, 0xC0)]) = (7, 5, 4, 0) := by decide
theorem test_invalid6_strict : regs (strict (start 7 4 [(4, 0xC0)])) = (7, 5, 0x1A, 4) := by decide
theorem test_invalid7_lenient : regs (start 0 0 [(0, 0xFF)]) = (0, 1, 4, 0) := by decide
theorem test_invalid7_strict : regs (strict (start 0 0 [(0, 0xE0)])) = (0, 1, 0x1A, 0) := by decide

/-- A fetch at `N` (95_test_vectors.md 2.3). -/
theorem test_fetch_out_of_range : regs (start 6 20 []) = (6, 20, 0x0A, 20) := by decide

/-- 95_test_vectors.md 2.4: `STA 5` at 4 changes the very next instruction, which halts. -/
theorem test_store_to_the_next_instruction :
    regs (after (start 0xA0 4 [(4, 0x85), (5, 0x2A)])) = (0xA0, 6, 1, 0) := by decide

/-- 95_test_vectors.md 2.9: reset keeps the memory. -/
theorem test_reset_keeps_memory :
    regs ((after (start 9 9 [(9, 0xA0), (17, 210)])).setRst true) = (0, 0, 0, 0) ∧
      cell ((after (start 9 9 [(9, 0xA0), (17, 210)])).setRst true) 17 = 210 := by decide

/-- R248: the load may come before the first reset; R81: not while the core runs. -/
theorem test_load_before_reset :
    ({ State.reset with wasReset := false }.hostWrite 19 7).toOption.isSome = true ∧
      State.reset.hostWrite 19 7 = .error .coreRunning := by decide

/-- 70_reset_and_hazards.md R251: with `run = 0` nothing happens without a pulse, and one instruction with it. -/
theorem test_single_step :
    (after ((start 0 0 [(0, 0x13), (19, 7)]).setRun false)).pc = 0 ∧
      (after ((start 0 0 [(0, 0x13), (19, 7)]).setRun false).pulseStep).acc = 7 := by decide

/-- 20_memory.md R71: the execute phase of `STA` drives one write. -/
theorem test_port_write :
    ({ start 0x5A 3 [(2, 0x8C)] with ir := 0x8C, phase := .execute } : State).portDrive = .write 12 0x5A := by decide

/-- The host's question: the first step from reset runs the placed word. -/
theorem test_place_word : regs (State.reset.withFetchWord 8 0xA0) = (0, 1, 1, 0) := by decide

/-! ### The assembler (95_test_vectors.md 2.2) -/

theorem test_asm_spaces :
    assembleLine 20 [' ', ' ', ' ', 'S', 'T', 'A', ' ', ' ', ' ', ' ', '1', '0', ' ', ' '] = .ok (.sta 10) := by decide
theorem test_asm_leading_zero : assembleLine 20 ['J', 'N', 'Z', ' ', '0', '1', '9'] = .ok (.jnz 19) := by decide
theorem test_asm_out_of_range :
    assembleLine 20 ['L', 'D', 'A', ' ', '9', '9'] = .error (.operandOutOfRange 99) := by decide
theorem test_asm_negative : assembleLine 20 ['S', 'U', 'B', ' ', '-', '1'] = .error (.operandOutOfRange (-1)) := by decide
theorem test_asm_unknown_first :
    assembleLine 20 ['F', 'O', 'O', ' ', '1', ' ', '2'] = .error (.unknownMnemonic ['F', 'O', 'O']) := by decide
theorem test_asm_hlt_operand :
    assembleLine 20 ['H', 'L', 'T', ' ', '0'] = .error (.malformedInstruction ['H', 'L', 'T', ' ', '0']) := by decide
theorem test_asm_lone_mnemonic :
    assembleLine 20 ['L', 'D', 'A'] = .error (.malformedInstruction ['L', 'D', 'A']) := by decide
theorem test_asm_bad_operand :
    assembleLine 20 ['L', 'D', 'A', ' ', '0', 'x', '1'] = .error (.invalidOperandFormat ['0', 'x', '1']) := by decide
/-- 95_test_vectors.md 2.2: the second of two lines fails; its number is 1, counted from 0 (log entry 15). -/
theorem test_asm_fail_fast :
    assemble Geometry.default Params.default [['L', 'D', 'A', ' ', '1'], ['F', 'O', 'O']] =
      .error { line := 1, error := .unknownMnemonic ['F', 'O', 'O'] } := by decide
theorem test_listing :
    listing OpcodeMap.default 0xE5 = ['.', 'w', 'o', 'r', 'd', ' ', '0', 'x', 'E', '5'] ∧
      listing OpcodeMap.default 0x8A = ['S', 'T', 'A', ' ', '1', '0'] := by decide

/-! ### Witnesses: the hypotheses of each statement can be met, at the boundary of each clause -/

theorem witness_DecodeEncodeRoundTrip :
    Params.default.Legal Geometry.default ∧ (Instr.lda 19).valid Params.default.capacity = true ∧
      (Instr.lda 31).wellFormed Geometry.default = true := by decide

theorem witness_DecodeFollowsTheOpcodeMap :
    OpcodeMap.default.Bijective ∧ (opField (g := Geometry.default) 0x1F).toNat = OpcodeMap.default.lda.val ∧
      (opField (g := Geometry.default) 0x20).toNat = OpcodeMap.default.add.val ∧
      (opField (g := Geometry.default) 0x40).toNat = OpcodeMap.default.sub.val ∧
      (opField (g := Geometry.default) 0x60).toNat = OpcodeMap.default.jnz.val ∧
      (opField (g := Geometry.default) 0x80).toNat = OpcodeMap.default.sta.val ∧
      (opField (g := Geometry.default) 0xA0).toNat = OpcodeMap.default.hlt.val ∧
      (opField (g := Geometry.default) 0xC0).toNat = 6 ∧ (opField (g := Geometry.default) 0xFF).toNat = 7 := by decide

theorem witness_UnusedWordBitsAreIgnored :
    (∀ k, k < wide.W → (k < wide.ADW ∨ wide.W - 3 ≤ k) →
        (0b1001100011 : Word wide).getLsbD k = (0b1000000011 : Word wide).getLsbD k) ∧
      wide.ADW ≤ 6 ∧ 6 < wide.W - 3 := by decide

theorem witness_EncodeRestoresADecodedWord :
    OpcodeMap.default.Bijective ∧
      (∀ k, wide.ADW ≤ k → k < wide.W - 3 → (0b1000000011 : Word wide).getLsbD k = false) ∧
      (decode OpcodeMap.default (0b1000000011 : Word wide)).operand =
        (operandField (0b1000000011 : Word wide)).toNat := by
  refine ⟨by decide, fun k h1 h2 => ?_, by decide⟩
  have h1' : 5 ≤ k := h1
  have h2' : k < 7 := h2
  interval_cases k <;> decide

theorem witness_StepRunsTheDecodedInstruction : (start 0 19 [(19, 0xA0)]).fetches = true := by decide

theorem witness_FetchOutOfBoundsFaults :
    ((start 0 20 []).ready = true ∧ (start 0 20 []).phase = .fetch ∧
        (start 0 20 []).cfg.capacity ≤ (start 0 20 []).pc.toNat) ∧
      ∃ i s t, exec i s = .next t ∧ t.status.cause = .oobFetch :=
  ⟨by decide, .hlt, (start 0 20 []).raiseFault .oobFetch 20, _, rfl, rfl⟩

theorem witness_StepStopsWhereTheSpecHasNoStep :
    ({ State.reset with wasReset := false } : State).pins.rst = false ∧
      ({ State.reset with wasReset := false } : State).wasReset = false ∧
      State.reset.halt.pins.rst = false ∧ State.reset.halt.wasReset = true ∧ State.reset.halt.status.halted = true ∧
      (after (start 0 20 [])).pins.rst = false ∧ (after (start 0 20 [])).wasReset = true ∧
      (after (start 0 20 [])).status.halted = false ∧ (after (start 0 20 [])).status.faulted = true ∧
      (State.reset.halt.setRst true).pins.rst = true ∧
      State.reset.wasReset = true ∧ State.reset.status.halted = false ∧ State.reset.status.faulted = false := by decide

theorem witness_StepIsThreeClockEdges : State.reset.ended = false ∧ State.reset.halt.ended = true := by decide

theorem witness_LdaEffect : 19 < State.reset.cfg.capacity ∧ State.reset.cfg.capacity ≤ 20 := by decide

theorem witness_StaEffect :
    Memory.wf (start 5 0 [(3, 9)]).cfg.capacity (start 5 0 [(3, 9)]).mem = true ∧
      19 < (start 5 0 [(3, 9)]).cfg.capacity ∧ (start 5 0 [(3, 9)]).cfg.capacity ≤ 20 := by decide

theorem witness_AddEffect : 0 < State.reset.cfg.capacity ∧ State.reset.cfg.capacity ≤ 31 := by decide

theorem witness_SubEffect : 19 < (start 5 0 []).cfg.capacity ∧ (start 5 0 []).cfg.capacity ≤ 20 := by decide

theorem witness_JnzEffect :
    (Instr.jnz 31).wellFormed Geometry.default = true ∧ (start 0x80 0 []).acc ≠ 0 ∧ (start 0 0 []).acc = 0 := by decide

theorem witness_InvalidOpcodeEffect :
    (Instr.invalidOp7 = .invalidOp6 ∨ Instr.invalidOp7 = .invalidOp7) ∧ State.reset.cfg.policy = .lenient ∧
      (strict State.reset).cfg.policy = .strict := by decide

theorem witness_LoadAndArithmeticFrame :
    (∃ t, exec (.add 19) State.reset = .next t) ∧ (∃ t, exec (.lda 20) State.reset = .next t) ∧
      19 < State.reset.cfg.capacity ∧ State.reset.cfg.capacity ≤ 20 :=
  ⟨⟨_, rfl⟩, ⟨_, rfl⟩, by decide, by decide⟩

theorem witness_StoreFrame :
    (∃ t, exec (.sta 19) (start 5 0 []) = .next t) ∧ (∃ t, exec (.sta 20) (start 5 0 []) = .next t) :=
  ⟨⟨_, rfl⟩, ⟨_, rfl⟩⟩

theorem witness_ControlFrame :
    (∃ t, exec (.jnz 31) (start 5 0 []) = .next t) ∧ (∃ t, exec .hlt State.reset = .next t) ∧
      (∃ t, exec .invalidOp6 (strict State.reset) = .next t) ∧ ∃ t, exec .invalidOp7 State.reset = .next t :=
  ⟨⟨_, rfl⟩, ⟨_, rfl⟩, ⟨_, rfl⟩, ⟨_, rfl⟩⟩

/-- The hypotheses of a whole cycle: the core fetches a word with this code and this operand. -/
abbrev cycleOf (s : State) (code : Fin 6) (a : Nat) : Prop :=
  s.fetches = true ∧ s.cfg.opcodeMap.Bijective ∧ Memory.wf s.cfg.capacity s.mem = true ∧
    (opField s.fetchedWord).toNat = code.val ∧ a = (operandField s.fetchedWord).toNat

theorem witness_LdaCycle :
    cycleOf (start 0 0 [(0, 0x13)]) OpcodeMap.default.lda 19 ∧ cycleOf (start 0 19 [(19, 0x14)]) OpcodeMap.default.lda 20 := by
  decide

theorem witness_StaCycle :
    cycleOf (start 1 0 [(0, 0x93)]) OpcodeMap.default.sta 19 ∧ cycleOf (start 1 19 [(19, 0x94)]) OpcodeMap.default.sta 20 := by
  decide

theorem witness_AddCycle :
    cycleOf (start 1 0 [(0, 0x33)]) OpcodeMap.default.add 19 ∧ cycleOf (start 1 19 [(19, 0x34)]) OpcodeMap.default.add 20 := by
  decide

theorem witness_SubCycle :
    cycleOf (start 1 0 [(0, 0x53)]) OpcodeMap.default.sub 19 ∧ cycleOf (start 1 19 [(19, 0x54)]) OpcodeMap.default.sub 20 := by
  decide

theorem witness_JnzCycle :
    cycleOf (start 0x80 19 [(19, 0x7F)]) OpcodeMap.default.jnz 31 ∧
      (start 0x80 19 [(19, 0x7F)]).acc.getLsbD 7 = true ∧ ∀ k, (start 0 19 [(19, 0x7F)]).acc.getLsbD k = false :=
  ⟨by decide, by decide, fun _ => BitVec.getLsbD_zero⟩

theorem witness_HltCycle :
    (start 0 19 [(19, 0xBF)]).fetches = true ∧ (start 0 19 [(19, 0xBF)]).cfg.Legal Geometry.default ∧
      (opField (start 0 19 [(19, 0xBF)]).fetchedWord).toNat = OpcodeMap.default.hlt.val := by decide

theorem witness_InvalidOpcodeCycle :
    (start 0 0 [(0, 0xC0)]).fetches = true ∧ (opField (start 0 0 [(0, 0xC0)]).fetchedWord).toNat = 6 ∧
      (strict (start 0 19 [(19, 0xFF)])).fetches = true ∧
      (opField (strict (start 0 19 [(19, 0xFF)])).fetchedWord).toNat = 7 ∧
      (start 0 0 [(0, 0xC0)]).cfg.policy = .lenient ∧ (strict (start 0 19 [(19, 0xFF)])).cfg.policy = .strict := by decide

theorem witness_StoreThenLoad :
    Memory.wf State.reset.cfg.capacity State.reset.mem = true ∧ 19 < State.reset.cfg.capacity ∧
      ∀ c ∈ [((18 : Nat), (7 : Word Geometry.default))], c.1 ≠ 19 := by decide

theorem witness_MemoryFormIsCanonical :
    Memory.wf 20 (start 0 0 [(3, 9), (19, 1)]).mem = true ∧
      ∀ a, a < 20 → Memory.read (start 0 0 [(3, 9), (19, 1)]).mem a = Memory.read (start 0 0 [(3, 9), (19, 1)]).mem a :=
  ⟨by decide, fun _ _ => rfl⟩

theorem witness_StaThenLda :
    Memory.wf (start 5 0 []).cfg.capacity (start 5 0 []).mem = true ∧ 19 < (start 5 0 []).cfg.capacity ∧
      (∀ i ∈ [Instr.sta 18, .lda 3], i ≠ .sta 19) ∧
      ∃ t u, exec (.sta 19) (start 5 0 []) = .next t ∧ execAll [.sta 18, .lda 3] t = .next u :=
  ⟨by decide, by decide, by decide, _, _, rfl, rfl⟩

theorem witness_StoreToOwnCell :
    (start 0xA0 4 [(4, 0x84)]).fetches = true ∧
      Memory.wf (start 0xA0 4 [(4, 0x84)]).cfg.capacity (start 0xA0 4 [(4, 0x84)]).mem = true ∧
      decode (start 0xA0 4 [(4, 0x84)]).cfg.opcodeMap (start 0xA0 4 [(4, 0x84)]).fetchedWord =
        .sta (start 0xA0 4 [(4, 0x84)]).pc.toNat := by decide

theorem witness_FetchSeesTheStore :
    (start 0xA0 4 [(4, 0x85)]).fetches = true ∧
      Memory.wf (start 0xA0 4 [(4, 0x85)]).cfg.capacity (start 0xA0 4 [(4, 0x85)]).mem = true ∧
      5 < (start 0xA0 4 [(4, 0x85)]).cfg.capacity ∧
      decode (start 0xA0 4 [(4, 0x85)]).cfg.opcodeMap (start 0xA0 4 [(4, 0x85)]).fetchedWord = .sta 5 ∧
      (after (start 0xA0 4 [(4, 0x85)])).pc.toNat = 5 := by decide

theorem witness_AddSubAlgebra : 19 < State.reset.cfg.capacity := by decide

/-- Both ends of the range: `0 - 128` and `127 - 0`. -/
theorem witness_WrappedSubReadsAsTheDifference :
    (-(2 ^ (Geometry.default.W - 1) : Int) ≤ ((0 : Word Geometry.default).toNat : Int) - (128 : Word Geometry.default).toNat ∧
        ((0 : Word Geometry.default).toNat : Int) - (128 : Word Geometry.default).toNat < 2 ^ (Geometry.default.W - 1)) ∧
      -(2 ^ (Geometry.default.W - 1) : Int) ≤ ((127 : Word Geometry.default).toNat : Int) - (0 : Word Geometry.default).toNat ∧
        ((127 : Word Geometry.default).toNat : Int) - (0 : Word Geometry.default).toNat < 2 ^ (Geometry.default.W - 1) := by
  decide

theorem witness_JnzOutOfRangeTarget :
    (start 1 19 [(19, 0x74)]).fetches = true ∧ (start 1 19 [(19, 0x74)]).pins.run = true ∧
      decode (start 1 19 [(19, 0x74)]).cfg.opcodeMap (start 1 19 [(19, 0x74)]).fetchedWord = .jnz 20 ∧
      (start 1 19 [(19, 0x74)]).cfg.capacity ≤ 20 ∧ (start 1 19 [(19, 0x74)]).acc ≠ 0 ∧
      (start 0 19 [(19, 0x74)]).acc = 0 ∧
      decode (start 0 19 [(19, 0x74)]).cfg.opcodeMap (start 0 19 [(19, 0x74)]).fetchedWord = .jnz 20 := by decide

theorem witness_JnzToItselfLoopsForEver :
    (start 1 3 [(3, 0x63)]).fetches = true ∧ (start 1 3 [(3, 0x63)]).pins.run = true ∧
      (start 1 3 [(3, 0x63)]).status.faulted = false ∧ (start 1 3 [(3, 0x63)]).acc ≠ 0 ∧
      decode (start 1 3 [(3, 0x63)]).cfg.opcodeMap (start 1 3 [(3, 0x63)]).fetchedWord =
        .jnz (start 1 3 [(3, 0x63)]).pc.toNat := by decide

theorem witness_LenientInvalidWordsWalkOn :
    (start 7 18 [(18, 0xC0), (19, 0xFF)]).ready = true ∧ (start 7 18 [(18, 0xC0), (19, 0xFF)]).phase = .fetch ∧
      (start 7 18 [(18, 0xC0), (19, 0xFF)]).pins.run = true ∧
      (start 7 18 [(18, 0xC0), (19, 0xFF)]).cfg.Legal Geometry.default ∧
      (start 7 18 [(18, 0xC0), (19, 0xFF)]).cfg.policy = .lenient ∧
      (start 7 18 [(18, 0xC0), (19, 0xFF)]).pc.toNat + (1 + 1) ≤ (start 7 18 [(18, 0xC0), (19, 0xFF)]).cfg.capacity ∧
      ∀ a, (start 7 18 [(18, 0xC0), (19, 0xFF)]).pc.toNat ≤ a →
        a < (start 7 18 [(18, 0xC0), (19, 0xFF)]).pc.toNat + (1 + 1) →
        decode (start 7 18 [(18, 0xC0), (19, 0xFF)]).cfg.opcodeMap
            (Memory.read (start 7 18 [(18, 0xC0), (19, 0xFF)]).mem a) = .invalidOp6 ∨
          decode (start 7 18 [(18, 0xC0), (19, 0xFF)]).cfg.opcodeMap
            (Memory.read (start 7 18 [(18, 0xC0), (19, 0xFF)]).mem a) = .invalidOp7 := by
  refine ⟨by decide, by decide, by decide, by decide, by decide, by decide, fun a h1 h2 => ?_⟩
  have h1' : 18 ≤ a := h1
  have h2' : a < 20 := h2
  interval_cases a <;> decide

theorem witness_FaultsArePrecise :
    (start 9 2 [(2, 0x14)]).ready = true ∧ (start 9 2 [(2, 0x14)]).phase = .fetch ∧
      step (start 9 2 [(2, 0x14)]) = .next (after (start 9 2 [(2, 0x14)])) ∧
      (after (start 9 2 [(2, 0x14)])).status.faulted = true ∧ (start 9 20 []).ready = true ∧
      step (start 9 20 []) = .next (after (start 9 20 [])) ∧ (after (start 9 20 [])).status.cause = .oobFetch :=
  ⟨by decide, by decide, rfl, by decide, by decide, rfl, by decide⟩

theorem witness_WhichInstructionsFault :
    State.reset.status.faulted = false ∧
      (∃ t, exec (.sub 20) (strict State.reset) = .next t ∧ t.status.faulted = true ∧
        (strict State.reset).cfg.capacity ≤ (Instr.sub 20).operand) ∧
      (∃ t, exec .invalidOp6 (strict State.reset) = .next t ∧ (strict State.reset).cfg.policy = .strict) ∧
      ∃ t, exec (.sub 19) State.reset = .next t ∧ t.status.faulted = false :=
  ⟨by decide, ⟨_, rfl, by decide, by decide⟩, ⟨_, rfl, rfl⟩, _, rfl, by decide⟩

theorem witness_StoppedCoreHoldsItsState :
    State.reset.halt.ended = true ∧ (after (start 0 20 [])).ended = true ∧
      19 < (after (start 0 20 [])).cfg.capacity := by decide

theorem witness_StatusBitsAreClearedByResetOnly :
    (start 0 0 [(0, 0xC0)]).reportInvalid.pins.rst = false ∧
      step (start 0 0 [(0, 0xC0)]).reportInvalid = .next (after (start 0 0 [(0, 0xC0)]).reportInvalid) ∧
      (start 0 0 [(0, 0xC0)]).reportInvalid.status.iop = true ∧ State.reset.halt.status.halted = true ∧
      edge State.reset.halt = .next State.reset.halt ∧ (after (start 0 20 [])).status.faulted = true ∧
      edge (after (start 0 20 [])) = .next (after (start 0 20 [])) :=
  ⟨by decide, rfl, by decide, by decide, rfl, by decide, rfl⟩

theorem witness_StatusIsNeverRead :
    ∃ t u, exec (.jnz 3) (start 1 0 []) = .next t ∧
      exec (.jnz 3) { start 1 0 [] with status := (State.reset.halt).status, faultAddr := 7 } = .next u :=
  ⟨_, _, rfl, rfl⟩

theorem witness_OnlyLoadAndArithmeticWriteAcc :
    (start 0 0 [(0, 0x13), (19, 7)]).phase = .fetch ∧
      step (start 0 0 [(0, 0x13), (19, 7)]) = .next (after (start 0 0 [(0, 0x13), (19, 7)])) ∧
      (after (start 0 0 [(0, 0x13), (19, 7)])).acc ≠ (start 0 0 [(0, 0x13), (19, 7)]).acc :=
  ⟨by decide, rfl, by decide⟩

theorem witness_PcMovesByFetchAndTakenJnzOnly :
    (start 1 0 [(0, 0x7F)]).fetches = true ∧ step (start 1 0 [(0, 0x7F)]) = .next (after (start 1 0 [(0, 0x7F)])) :=
  ⟨by decide, rfl⟩

theorem witness_PcNeverWraps :
    (start 0 19 []).cfg.Legal Geometry.default ∧ (start 0 19 []).pc.toNat < (start 0 19 []).cfg.capacity ∧
      decode (start 0 19 []).cfg.opcodeMap (0x7F : Word Geometry.default) = .jnz 31 := by decide

theorem witness_OnlyStaWritesMemory :
    (start 5 0 [(0, 0x93)]).phase = .fetch ∧ step (start 5 0 [(0, 0x93)]) = .next (after (start 5 0 [(0, 0x93)])) ∧
      Memory.read (after (start 5 0 [(0, 0x93)])).mem 19 ≠ Memory.read (start 5 0 [(0, 0x93)]).mem 19 :=
  ⟨by decide, rfl, by decide⟩

/-- A state after reset with a program placed meets the invariant. -/
theorem start_inv : (start 5 0 [(0, 0x93)]).Inv :=
  ⟨by decide, by decide, by decide, by decide, by decide, by decide, by decide, by decide, by decide, by decide, by decide⟩

theorem witness_StepKeepsTheInvariant :
    (start 5 0 [(0, 0x93)]).Inv ∧ step (start 5 0 [(0, 0x93)]) = .next (after (start 5 0 [(0, 0x93)])) :=
  ⟨start_inv, rfl⟩

theorem witness_EdgeKeepsTheInvariant : (start 5 0 [(0, 0x93)]).Inv ∧ ∃ t, edgeAt (start 5 0 [(0, 0x93)]) = .next t :=
  ⟨start_inv, _, rfl⟩

theorem witness_HostActionsKeepTheInvariant :
    (start 5 0 [(0, 0x93)]).Inv ∧ (start 5 0 [(0, 0x93)]).ready = true ∧
      (start 5 0 [(0, 0x93)]).cfg.Legal Geometry.default ∧
      (∃ t, ((start 5 0 [(0, 0x93)]).setRst true).hostWrite 19 7 = .ok t) ∧
      (∃ t, ((start 5 0 [(0, 0x93)]).setRst true).loadProgram [0xA0] = .ok t) ∧
      (∃ t, ((start 5 0 [(0, 0x93)]).setRst true).writeData [(19, 7)] = .ok t) ∧
      ∃ t, (start 5 0 [(0, 0x93)]).boot [0xA0] [(19, 7)] = .ok t :=
  ⟨start_inv, by decide, by decide, ⟨_, rfl⟩, ⟨_, rfl⟩, ⟨_, rfl⟩, _, rfl⟩

theorem witness_ResetClearsTheCore :
    (({ start 5 3 [] with phase := .execute } : State).setRst true).pins.rst = true ∧
      (State.reset.halt.setRst true).live = false ∧
      ∃ t, edge (State.reset.halt.setRst true) = .next t ∧ t.live = true :=
  ⟨by decide, by decide, _, rfl, by decide⟩

theorem witness_RunLowWaitsAtTheBoundary :
    (State.reset.setRun false).pins.rst = false ∧ (State.reset.setRun false).wasReset = true ∧
      (State.reset.setRun false).live = true ∧ (State.reset.setRun false).pins.run = false ∧
      (State.reset.setRun false).phase = .fetch ∧ (State.reset.setRun false).pins.step = false ∧
      ({ State.reset.setRun false with phase := .decode } : State).phase ≠ .fetch := by decide

theorem witness_SingleStepRunsOneInstruction :
    ((start 0 0 [(0, 0x13)]).setRun false).pulseStep.ready = true ∧
      ((start 0 0 [(0, 0x13)]).setRun false).pulseStep.phase = .fetch ∧
      ((start 0 0 [(0, 0x13)]).setRun false).pulseStep.pins.run = false ∧
      (after ((start 0 0 [(0, 0x13)]).setRun false).pulseStep).live = true ∧ State.reset.pins.run = true ∧
      ({ State.reset with phase := .decode } : State).phase ≠ .fetch ∧ State.reset.halt.live = false := by decide

theorem witness_LoaderPlacesTheProgram :
    Memory.wf (State.reset.setRst true).cfg.capacity (State.reset.setRst true).mem = true ∧
      (State.reset.setRst true).idle = true ∧
      (List.replicate 20 (0xA0 : Word Geometry.default)).length ≤ (State.reset.setRst true).cfg.capacity ∧
      (State.reset.setRst true).cfg.capacity < (List.replicate 21 (0xA0 : Word Geometry.default)).length := by decide

theorem witness_BootGivesTheLaunchState :
    State.reset.mem = [] ∧ [(0x0F : Word Geometry.default), 0xA0].length ≤ State.reset.cfg.capacity ∧
      ∀ c ∈ [((15 : Nat), (20 : Word Geometry.default)), (19, 1)], c.1 < State.reset.cfg.capacity := by decide

/-- A state in its execute phase with the word `w` in `IR`. -/
def executing (w : Nat) : State := { start 5 1 [(19, 7)] with ir := BitVec.ofNat _ w, phase := .execute }

theorem witness_PortCarriesEveryAccess :
    ((start 5 0 [(0, 0x93)]).cfg.Legal Geometry.default ∧ (∃ t, edgeAt (start 5 0 [(0, 0x93)]) = .next t) ∧
        memAddr (start 5 19 [(19, 0x93)]).portDrive = some 19 ∧ (start 5 0 [(0, 0x93)]).fetches = true) ∧
      ((executing 0x33).ready = true ∧ (executing 0x33).phase = .execute ∧
        ∃ t, edgeAt (executing 0x33) = .next t) ∧
      ((executing 0x13).decoded = .lda 19 ∧ (executing 0x33).decoded = .add 19 ∧ (executing 0x53).decoded = .sub 19 ∧
        19 < (executing 0x33).cfg.capacity) ∧
      ((executing 0x93).decoded = .sta 19 ∧ (executing 0x34).decoded = .add 20 ∧
        (executing 0x34).cfg.capacity ≤ 20) ∧
      ((executing 0x73).decoded = .jnz 19 ∧ (executing 0xA0).decoded = .hlt ∧
        (executing 0xC0).decoded = .invalidOp6 ∧ (executing 0xE0).decoded = .invalidOp7) ∧
      ({ State.reset with phase := .decode } : State).phase = .decode ∧ State.reset.halt.ready = false :=
  ⟨⟨by decide, ⟨_, rfl⟩, by decide, by decide⟩, ⟨by decide, by decide, _, rfl⟩, by decide, by decide, by decide, by decide,
    by decide⟩

theorem witness_AssembledWordsDecodeToTheirLines :
    Params.default.Legal Geometry.default ∧
      assemble Geometry.default Params.default [['J', 'N', 'Z', ' ', '1', '9'], ['H', 'L', 'T']] = .ok [0x73, 0xA0] := by
  decide

theorem witness_ListingsReassemble : (decode OpcodeMap.default (0x93 : Word Geometry.default)).valid 20 = true := by decide

end Sys2Proof.Tests
end

/-! The statement of the family 00_scope.md: the machine at any widths and the machine at the default widths. -/

namespace Sys2Proof.Proofs

open Sys2Proof.Machine

/-- The two dispatches of the execute phase are one function at the default widths. -/
theorem execAt_default : (execAt : Instr → State → Result Geometry.default) = exec :=
  funext fun i => funext fun s => execAt_eq_exec i s

/-- Both forms of the step run the same cycle over their dispatch. -/
theorem stepAt_eq_step (s : State) : stepAt s = step s :=
  congrArg (fun ex => stepWith ex s) execAt_default

/-- Both forms of the clock edge run the same phase over their dispatch. -/
theorem edgeAt_eq_edge (s : State) : edgeAt s = edge s :=
  congrArg (fun ex => edgeWith ex s) execAt_default

/-- Settles O10: step and edge are the same cycle at any widths, and the dispatches agree instruction by instruction. -/
theorem defaultWidthsAreAnInstance : Obligations.DefaultWidthsAreAnInstance :=
  fun s => ⟨stepAt_eq_step s, edgeAt_eq_edge s, fun i => execAt_eq_exec i s⟩

end Sys2Proof.Proofs

/-! What one execute phase can do, said once, and one principle for steps and clock edges: a property that is kept by
reset, by the end of a pulse and by each of the three phases is kept by every step and by every edge. -/

namespace Sys2Proof.Machine

variable {g : Geometry} {ex : Instr → State g → Result g} {s t : State g} {i : Instr}

/-! ### The decoder and the fetch -/

/-- Every decoded instruction fits the encoding (30_encoding.md R92, R98). -/
theorem decode_wellFormed (m : OpcodeMap) (w : Word g) : (decode m w).wellFormed g = true := by
  have hlt : (operandField w).toNat < 2 ^ g.ADW := by
    simp only [operandField, BitVec.toNat_setWidth]
    exact (Nat.mod_le _ _).trans_lt (BitVec.isLt _)
  unfold decode decodeOp
  repeat' split
  all_goals simp [Instr.wellFormed, hlt]

/-- A number below the capacity of a legal memory fits the `addr` field. -/
theorem State.lt_of_lt_capacity (hp : s.cfg.Legal g) {a : Nat} (ha : a < s.cfg.capacity) : a < 2 ^ g.ADW :=
  ha.trans_le hp.2.1

/-- The increment of `PC` does not wrap below the capacity (10_state.md R35). -/
theorem State.pc_succ_toNat (hp : s.cfg.Legal g) (h : s.pc.toNat < s.cfg.capacity) :
    (s.pc + 1).toNat = s.pc.toNat + 1 := by
  have hlt := State.lt_of_lt_capacity hp h
  have hw : 2 ^ g.pcw = 2 ^ g.ADW * 2 := Nat.pow_succ ..
  have h1 : (1 : PcWord g).toNat = 1 := BitVec.toNat_one (Nat.succ_pos _)
  rw [BitVec.toNat_add, h1, Nat.mod_eq_of_lt (by omega)]

theorem State.fetchPhase_of_lt (h : s.pc.toNat < s.cfg.capacity) :
    s.fetchPhase = { s with ir := s.fetchedWord, pc := s.pc + 1, phase := .decode } := by
  simp [State.fetchPhase, State.fetchedWord, h]

theorem State.fetchPhase_of_le (h : s.cfg.capacity ≤ s.pc.toNat) :
    s.fetchPhase = s.raiseFault .oobFetch s.pc.toNat := by
  simp [State.fetchPhase, h]

/-! ### Which core runs -/

theorem State.live_iff : s.live = true ↔ s.status.halted = false ∧ s.status.faulted = false := by
  simp [State.live]

theorem State.live_of_ready (h : s.ready = true) : s.live = true := by
  simp only [State.ready, Bool.and_eq_true] at h
  exact h.1.2

theorem State.dropPulse_live_of_ready (h : s.ready = true) : s.dropPulse.live = true :=
  State.live_of_ready (s := s) h

theorem State.fetches_iff :
    s.fetches = true ↔ s.ready = true ∧ s.phase = .fetch ∧ s.pc.toNat < s.cfg.capacity := by
  simp [State.fetches, and_assoc]

/-! ### The execute phase -/

/-- What the execute phase of an instruction does to a state, one constructor for each outcome of 41_load_store.md to
43_control.md. -/
inductive ExecEffect (s : State g) : Instr → State g → Prop
  | lda {a : Nat} (ha : a < s.cfg.capacity) : ExecEffect s (.lda a) (s.setAcc (Memory.read s.mem a))
  | add {a : Nat} (ha : a < s.cfg.capacity) :
      ExecEffect s (.add a) (s.setAcc (aluAdd s.acc (Memory.read s.mem a)))
  | sub {a : Nat} (ha : a < s.cfg.capacity) :
      ExecEffect s (.sub a) (s.setAcc (aluSub s.acc (Memory.read s.mem a)))
  | sta {a : Nat} (ha : a < s.cfg.capacity) :
      ExecEffect s (.sta a) { s with mem := Memory.write s.mem a s.acc }
  | jump {a : Nat} (hz : s.acc ≠ 0) : ExecEffect s (.jnz a) (s.setPc (jumpTarget g a))
  | pass {a : Nat} (hz : s.acc = 0) : ExecEffect s (.jnz a) s
  | hlt : ExecEffect s .hlt s.halt
  | report {i : Instr} (hi : i = .invalidOp6 ∨ i = .invalidOp7) (hp : s.cfg.policy = .lenient) :
      ExecEffect s i s.reportInvalid
  | trap {i : Instr} (hi : i = .invalidOp6 ∨ i = .invalidOp7) (hp : s.cfg.policy = .strict) :
      ExecEffect s i (s.raiseFault .invalidOpcode (s.pc - 1).toNat)
  | outOfRange {i : Instr} {a : Nat} (hi : i = .lda a ∨ i = .add a ∨ i = .sub a ∨ i = .sta a)
      (ha : s.cfg.capacity ≤ a) : ExecEffect s i (s.raiseFault .oobData a)

/-- An instruction that reads its operand has the effect of its range. -/
theorem ExecEffect.withOperand {a : Nat} {k : Word g → State g}
    (hi : i = .lda a ∨ i = .add a ∨ i = .sub a ∨ i = .sta a)
    (hk : a < s.cfg.capacity → ExecEffect s i (k (Memory.read s.mem a))) : ExecEffect s i (s.withOperand a k) := by
  rcases s.withOperand_cases a k with ⟨ha, e⟩ | ⟨ha, e⟩
  · exact e ▸ hk ha
  · exact e ▸ .outOfRange hi ha

/-- An invalid opcode has the effect of the policy. -/
theorem ExecEffect.invalidOpcode (hi : i = .invalidOp6 ∨ i = .invalidOp7) : ExecEffect s i s.invalidOpcode := by
  rcases s.invalidOpcode_cases with ⟨hp, e⟩ | ⟨hp, e⟩
  · exact e ▸ .report hi hp
  · exact e ▸ .trap hi hp

/-- Every instruction answers a next state, and it is the one of `ExecEffect`. -/
theorem execAt_effect (h : execAt i s = .next t) : ExecEffect s i t := by
  cases i with
  | lda a => cases h; exact .withOperand (by simp) .lda
  | add a => cases h; exact .withOperand (by simp) .add
  | sub a => cases h; exact .withOperand (by simp) .sub
  | jnz a =>
    cases h
    split
    case isTrue hz => exact .jump ((isNonZero_iff _).1 hz)
    case isFalse hz => exact .pass (not_not.1 fun h => hz ((isNonZero_iff _).2 h))
  | sta a =>
    cases h
    rcases s.storeOperand_cases a s.acc with ⟨ha, e⟩ | ⟨ha, e⟩
    · exact e ▸ .sta ha
    · exact e ▸ .outOfRange (by simp) ha
  | hlt => cases h; exact .hlt
  | invalidOp6 => cases h; exact .invalidOpcode (by simp)
  | invalidOp7 => cases h; exact .invalidOpcode (by simp)

theorem ExecEffect.cfg_eq (h : ExecEffect s i t) : t.cfg = s.cfg := by
  cases h <;> rfl

theorem ExecEffect.pins_eq (h : ExecEffect s i t) : t.pins = s.pins := by
  cases h <;> rfl

/-- An execute phase does not look at `PHASE`. -/
theorem ExecEffect.setPhase (h : ExecEffect s i t) (p : Phase) :
    ExecEffect { s with phase := p } i { t with phase := p } := by
  cases h with
  | lda ha => exact .lda ha
  | add ha => exact .add ha
  | sub ha => exact .sub ha
  | sta ha => exact .sta (s := { s with phase := p }) ha
  | jump hz => exact .jump hz
  | pass hz => exact .pass hz
  | hlt => exact .hlt
  | report hi hp => exact .report hi hp
  | trap hi hp => exact .trap hi hp
  | outOfRange hi ha => exact .outOfRange hi ha

/-- Only a load, an addition or a subtraction inside the memory changes `ACC` (10_state.md R31). -/
theorem ExecEffect.acc_ne (h : ExecEffect s i t) (hne : t.acc ≠ s.acc) :
    ∃ a, a < s.cfg.capacity ∧ (i = .lda a ∨ i = .add a ∨ i = .sub a) := by
  cases h
  case lda ha => exact ⟨_, ha, .inl rfl⟩
  case add ha => exact ⟨_, ha, .inr (.inl rfl)⟩
  case sub ha => exact ⟨_, ha, .inr (.inr rfl)⟩
  all_goals exact absurd rfl hne

/-- An execute phase leaves `PC` alone but for a taken jump (43_control.md R193). -/
theorem ExecEffect.pc_eq_or_jump (h : ExecEffect s i t) :
    t.pc = s.pc ∨ ∃ a, i = .jnz a ∧ s.acc ≠ 0 ∧ t.pc = jumpTarget g a := by
  cases h
  case jump a hz => exact .inr ⟨a, rfl, hz, rfl⟩
  all_goals exact .inl rfl

/-! ### From the phases to the step and the edge -/

/-- A property of states that reset, the end of a pulse and the three phases keep. The phases need it of a live core
only. -/
structure CycleKeeps (ex : Instr → State g → Result g) (P : State g → Prop) : Prop where
  reset : ∀ s : State g, P s → s.pins.rst = true → P s.coreReset
  dropPulse : ∀ s : State g, P s → P s.dropPulse
  fetch : ∀ s : State g, P s → s.live = true → s.phase = .fetch → P s.fetchPhase
  decode : ∀ s : State g, P s → s.live = true → P s.decodePhase
  execute : ∀ s t : State g, P s → s.live = true → ex s.decoded s = .next t → P { t with phase := .fetch }

namespace CycleKeeps

variable {P : State g → Prop} (hk : CycleKeeps ex P)
include hk

theorem executePhase (hP : P s) (hl : s.live = true) (h : executePhase ex s = .next t) : P t := by
  obtain ⟨u, hu, rfl⟩ := executePhase_next h
  exact hk.execute s u hP hl hu

theorem completeInstr (hP : P s) (hl : s.live = true) (h : completeInstr ex s = .next t) : P t := by
  rcases completeInstr_cases ex s with ⟨hp, hN, e⟩ | ⟨hp, hN, e⟩ | ⟨-, e⟩ | ⟨-, e⟩ <;> rw [e] at h
  · have hlf : s.fetchPhase.live = true := by rw [State.fetchPhase_of_lt hN]; exact hl
    exact hk.executePhase (hk.decode _ (hk.fetch s hP hl hp) hlf) hlf h
  · cases h
    exact State.fetchPhase_of_le hN ▸ hk.fetch s hP hl hp
  · exact hk.executePhase (hk.decode s hP hl) hl h
  · exact hk.executePhase hP hl h

/-- Every step keeps what the phases keep. -/
theorem step (hP : P s) (h : stepWith ex s = .next t) : P t := by
  rcases stepWith_cases ex s with ⟨hr, e⟩ | ⟨-, -, e⟩ | ⟨-, -, -, e⟩ | ⟨-, -, -, -, e⟩ | ⟨hr, e⟩ <;> rw [e] at h
  · cases h
    exact hk.reset _ (hk.dropPulse s hP) hr
  · cases h
  · cases h
  · cases h
    exact hP
  · exact hk.completeInstr (hk.dropPulse s hP) (State.dropPulse_live_of_ready hr) h

/-- Every clock edge keeps what the phases keep. -/
theorem edge (hP : P s) (h : edgeWith ex s = .next t) : P t := by
  have hd := hk.dropPulse s hP
  rcases edgeWith_cases ex s with ⟨hr, e⟩ | ⟨-, -, e⟩ | ⟨-, -, -, e⟩ | ⟨-, -, -, -, e⟩ | ⟨hr, hp, e⟩ | ⟨hr, -, e⟩ |
    ⟨hr, -, e⟩ <;> rw [e] at h
  · cases h
    exact hk.reset _ hd hr
  · cases h
  · cases h
    exact hd
  · cases h
    exact hP
  · cases h
    exact hk.fetch _ hd (State.dropPulse_live_of_ready hr) hp
  · cases h
    exact hk.decode _ hd (State.dropPulse_live_of_ready hr)
  · exact hk.executePhase hd (State.dropPulse_live_of_ready hr) h

end CycleKeeps

/-! ### A step from an instruction boundary -/

/-- Where the core fetches, the step is the execute phase of the fetched word after the fetch's writes (40_cycle.md R131,
R133, R134). -/
theorem stepWith_of_fetches (h : s.fetches = true) :
    stepWith ex s = executePhase ex { s.afterFetch with phase := .execute } := by
  obtain ⟨hr, hp, hN⟩ := State.fetches_iff.1 h
  simp only [State.ready, Bool.and_eq_true, Bool.not_eq_true'] at hr
  obtain ⟨⟨⟨hrst, hwas⟩, hlive⟩, hwait⟩ := hr
  have hf := State.fetchPhase_of_lt (s := s.dropPulse) hN
  simp only [stepWith, hrst, hwas, hlive, hwait, completeInstr, State.dropPulse_phase, hp]
  exact (if_pos hN).trans (by rw [hf]; rfl)

/-- From an instruction boundary a step resets, waits, takes the fetch's fault, or fetches and executes. -/
theorem stepWith_boundary_cases (hp : s.phase = .fetch) (h : stepWith ex s = .next t) :
    (s.pins.rst = true ∧ t = s.dropPulse.coreReset) ∨ (s.waiting = true ∧ t = s) ∨
      (s.cfg.capacity ≤ s.pc.toNat ∧ t = s.dropPulse.raiseFault .oobFetch s.pc.toNat) ∨
      (s.fetches = true ∧ ∃ u,
        ex (decode s.cfg.opcodeMap s.fetchedWord) { s.afterFetch with phase := .execute } = .next u ∧
          t = { u with phase := .fetch }) := by
  rcases stepWith_cases ex s with ⟨hr, e⟩ | ⟨-, -, e⟩ | ⟨-, -, -, e⟩ | ⟨-, -, -, hw, e⟩ | ⟨hr, e⟩ <;> rw [e] at h
  · cases h
    exact .inl ⟨hr, rfl⟩
  · cases h
  · cases h
  · cases h
    exact .inr (.inl ⟨hw, rfl⟩)
  · rcases Nat.lt_or_ge s.pc.toNat s.cfg.capacity with hN | hN
    · have hf : s.fetches = true := State.fetches_iff.2 ⟨hr, hp, hN⟩
      rw [← e, stepWith_of_fetches hf] at h
      exact .inr (.inr (.inr ⟨hf, executePhase_next h⟩))
    · have hc : completeInstr ex s.dropPulse = .next s.dropPulse.fetchPhase := by
        simp [completeInstr, hp, Nat.not_lt.2 hN]
      rw [hc, State.fetchPhase_of_le (s := s.dropPulse) hN] at h
      cases h
      exact .inr (.inr (.inl ⟨hN, rfl⟩))

end Sys2Proof.Machine

/-! The machine's invariant is kept by reset, by the end of a pulse and by each of the three phases. -/

namespace Sys2Proof.Machine

open Sys2Proof.Laws

variable {g : Geometry} {s t : State g} {i : Instr}

namespace State.Inv

/-- A live core has no fault to report: no cause and no address (10_state.md R39, R40). -/
theorem cause_none (h : s.Inv) (hl : s.live = true) : s.status.cause = .none := by
  by_contra hc
  have hf := h.causeIff.2 hc
  rw [(State.live_iff.1 hl).2] at hf
  cases hf

/-- The state a reset leaves meets the invariant, whatever the core was doing (70_reset_and_hazards.md R240). -/
theorem coreReset (hp : s.cfg.Legal g) (hm : Memory.wf s.cfg.capacity s.mem = true) : s.coreReset.Inv where
  params := hp
  mem := hm
  pcBound := by simp
  notBoth _ := rfl
  causeIff := by simp
  addrZero _ := rfl
  fetchFault := by simp
  dataFault := by simp
  opcodeFault := by simp
  iopLenient := by simp
  stoppedAtFetch _ := rfl

/-- The invariant does not look at the input pins. -/
theorem dropPulse (h : s.Inv) : s.dropPulse.Inv := { h with }

/-- An update of a live core that writes neither `STATUS` nor `FAULT_ADDR` need only respect the memory's form and the
bound on `PC`. -/
theorem of_status_eq (h : s.Inv) (hl : s.live = true) (hcfg : t.cfg = s.cfg) (hst : t.status = s.status)
    (hfa : t.faultAddr = s.faultAddr) (hm : Memory.wf t.cfg.capacity t.mem = true)
    (hpc : t.pc.toNat ≤ 2 ^ g.ADW) : t.Inv := by
  have hc := h.cause_none hl
  have hlt : t.live = true := by simpa [State.live, hst] using hl
  refine ⟨hcfg ▸ h.params, hm, hpc, ?_, ?_, ?_, ?_, ?_, ?_, ?_, by simp [hlt]⟩
  · rw [hst]; exact h.notBoth
  · rw [hst]; exact h.causeIff
  · rw [hst, hfa]; exact h.addrZero
  · simp [hst, hc]
  · simp [hst, hc]
  · simp [hst, hc]
  · rw [hst, hcfg]; exact h.iopLenient

theorem setPhase (h : s.Inv) (hl : s.live = true) (p : Phase) : ({ s with phase := p } : State g).Inv :=
  h.of_status_eq hl rfl rfl rfl h.mem h.pcBound

/-- Halting at an instruction boundary (60_exceptions.md R216). -/
theorem halt (h : s.Inv) (hl : s.live = true) (hp : s.phase = .fetch) : s.halt.Inv :=
  { h with
    notBoth := fun _ => (State.live_iff.1 hl).2
    stoppedAtFetch := fun _ => hp }

/-- Reporting an invalid opcode under `LENIENT` (43_control.md R199). -/
theorem reportInvalid (h : s.Inv) (hp : s.cfg.policy = .lenient) : s.reportInvalid.Inv :=
  { h with iopLenient := fun _ => hp }

end State.Inv

/-- The row of R211's table that a fault of cause `c` at `x` belongs to, in the state that takes it; there is none for the
cause `NONE`. -/
def State.FaultRow (s : State g) (x : Nat) : Cause → Prop
  | .none => False
  | .oobFetch => s.cfg.capacity ≤ s.pc.toNat ∧ x = s.pc.toNat
  | .oobData => s.cfg.capacity ≤ x ∧ x < 2 ^ g.ADW
  | .invalidOpcode => s.cfg.policy = .strict ∧ x = (s.pc - 1).toNat

namespace State.Inv

/-- A fault of a row of R211's table taken at an instruction boundary. -/
theorem raiseFault {c : Cause} {x : Nat} (h : s.Inv) (hl : s.live = true) (hp : s.phase = .fetch)
    (hrow : s.FaultRow x c) : (s.raiseFault c x).Inv :=
  { h with
    notBoth := fun hh => absurd hh (by simp [(State.live_iff.1 hl).1])
    causeIff := ⟨fun _ hc => by cases (hc : c = .none); exact hrow, fun _ => rfl⟩
    addrZero := fun hf => nomatch hf
    fetchFault := by
      rintro (rfl : c = .oobFetch)
      obtain ⟨hN, rfl⟩ := hrow
      exact ⟨hN, by simp⟩
    dataFault := by
      rintro (rfl : c = .oobData)
      have hx : (BitVec.ofNat g.pcw x).toNat = x := jumpTarget_toNat hrow.2
      exact hx.symm ▸ hrow
    opcodeFault := by
      rintro (rfl : c = .invalidOpcode)
      obtain ⟨hs, rfl⟩ := hrow
      have hx : BitVec.ofNat g.pcw (s.pc - 1).toNat = s.pc - 1 := by rw [BitVec.ofNat_toNat, BitVec.setWidth_eq]
      exact ⟨hs, by rw [State.raiseFault_faultAddr, hx]; exact (BitVec.sub_add_cancel s.pc 1).symm⟩
    stoppedAtFetch := fun _ => hp }

/-- The fetch keeps the invariant: `PC` ends at `N` at most, or the fault has its row. -/
theorem fetchPhase (h : s.Inv) (hl : s.live = true) (hp : s.phase = .fetch) : s.fetchPhase.Inv := by
  rcases Nat.lt_or_ge s.pc.toNat s.cfg.capacity with hN | hN
  · rw [State.fetchPhase_of_lt hN]
    refine h.of_status_eq hl rfl rfl rfl h.mem ?_
    rw [State.pc_succ_toNat h.params hN]
    exact State.lt_of_lt_capacity h.params hN
  · rw [State.fetchPhase_of_le hN]
    exact h.raiseFault hl hp ⟨hN, rfl⟩

/-- The execute phase of an instruction that fits the encoding keeps the invariant at the instruction boundary. -/
theorem exec (h : s.Inv) (hl : s.live = true) (hp : s.phase = .fetch) (hi : i.wellFormed g = true)
    (he : ExecEffect s i t) : t.Inv := by
  have hop := operand_lt_of_wellFormed hi
  cases he with
  | lda _ | add _ | sub _ => exact h.of_status_eq hl rfl rfl rfl h.mem h.pcBound
  | sta ha => exact h.of_status_eq hl rfl rfl rfl (Memory.write_wf h.mem ha) h.pcBound
  | jump _ => exact h.of_status_eq hl rfl rfl rfl h.mem ((jumpTarget_toNat hop).trans_le hop.le)
  | pass _ => exact h
  | hlt => exact h.halt hl hp
  | report _ hpol => exact h.reportInvalid hpol
  | trap _ hpol => exact h.raiseFault hl hp ⟨hpol, rfl⟩
  | outOfRange hacc ha =>
    refine h.raiseFault hl hp ⟨ha, ?_⟩
    rcases hacc with rfl | rfl | rfl | rfl <;> exact hop

end State.Inv

/-- Every part of the cycle keeps the invariant. -/
theorem cycleKeeps_inv : CycleKeeps execAt (State.Inv (g := g)) where
  reset _ h _ := .coreReset h.params h.mem
  dropPulse _ h := h.dropPulse
  fetch _ h hl hp := h.fetchPhase hl hp
  decode _ h hl := h.setPhase hl .execute
  execute _ _ h hl he :=
    (h.setPhase hl .fetch).exec hl rfl (decode_wellFormed _ _) ((execAt_effect he).setPhase .fetch)

/-- No part of the cycle changes the parameters (00_scope.md R8). -/
theorem cycleKeeps_cfg (p : Params) : CycleKeeps execAt (fun s : State g => s.cfg = p) where
  reset _ h _ := h
  dropPulse _ h := h
  fetch s h _ _ := by rcases s.fetchPhase_cases with ⟨-, e⟩ | ⟨-, e⟩ <;> rw [e] <;> exact h
  decode _ h _ := h
  execute _ _ h _ he := (execAt_effect he).cfg_eq.trans h

end Sys2Proof.Machine

namespace Sys2Proof.Proofs

open Sys2Proof.Machine

/-- Settles O49: reset and each phase keep the invariant, so every clock edge does. -/
theorem edgeKeepsTheInvariant : Obligations.EdgeKeepsTheInvariant :=
  fun _ _ _ hinv h => cycleKeeps_inv.edge hinv h

/-- Settles O48: reset and each phase keep the invariant and the parameters, so every step does. -/
theorem stepKeepsTheInvariant : Obligations.StepKeepsTheInvariant := by
  intro s t hinv h
  rw [← stepAt_eq_step] at h
  exact ⟨cycleKeeps_inv.step hinv h, (cycleKeeps_cfg s.cfg).step rfl h⟩

/-- Settles O47: the state after reset is one that `State.coreReset` leaves, with no cell listed. -/
theorem resetMeetsTheInvariant : Obligations.ResetMeetsTheInvariant :=
  ⟨State.Inv.coreReset (s := State.reset) (by decide) State.reset_mem_wf, fun _ => rfl⟩

end Sys2Proof.Proofs

/-! `STATUS` and `FAULT_ADDR` are written once and never read; how `ACC` and `PC` move. -/

namespace Sys2Proof.Machine

open Sys2Proof.Laws

variable {g : Geometry} {s t : State g} {i : Instr}

/-- The operand of a decoded `JNZ` fits the `addr` field. -/
theorem decode_jnz_lt {m : OpcodeMap} {w : Word g} {a : Nat} (h : decode m w = .jnz a) : a < 2 ^ g.ADW := by
  have hw := operand_lt_of_wellFormed (decode_wellFormed m w)
  rwa [h] at hw

/-! ### What only reset clears -/

/-- With `rst = 0`, what `s` has set in `STATUS` is still set in `t`, and a fault recorded in `s` is recorded in `t`. -/
structure StatusKept (s t : State g) : Prop where
  rst : t.pins.rst = false
  iop : s.status.iop = true → t.status.iop = true
  halted : s.status.halted = true → t.status.halted = true
  faulted : s.status.faulted = true →
    t.status.faulted = true ∧ t.status.cause = s.status.cause ∧ t.faultAddr = s.faultAddr

namespace StatusKept

variable {u : State g}

theorem refl (h : s.pins.rst = false) : StatusKept s s := ⟨h, id, id, fun hf => ⟨hf, rfl, rfl⟩⟩

/-- Past a live core nothing but `IOP` is there to keep. -/
theorem of_live (h : StatusKept s t) (hl : t.live = true) (hrst : u.pins = t.pins)
    (hiop : t.status.iop = true → u.status.iop = true) : StatusKept s u where
  rst := hrst ▸ h.rst
  iop hs := hiop (h.iop hs)
  halted hs := absurd (h.halted hs) (by simp [(State.live_iff.1 hl).1])
  faulted hs := absurd (h.faulted hs).1 (by simp [(State.live_iff.1 hl).2])

end StatusKept

theorem ExecEffect.iop_kept (h : ExecEffect s i t) (hs : s.status.iop = true) : t.status.iop = true := by
  cases h
  case report => rfl
  all_goals exact hs

/-- With `rst = 0` every part of the cycle keeps what is set in `STATUS`. -/
theorem cycleKeeps_status (s : State g) : CycleKeeps execAt (StatusKept s) where
  reset t h hr := absurd hr (by simp [h.rst])
  dropPulse _ h := { h with }
  fetch t h hl _ := by
    rcases t.fetchPhase_cases with ⟨-, e⟩ | ⟨-, e⟩ <;> rw [e] <;> exact h.of_live hl rfl id
  decode _ h hl := h.of_live hl rfl id
  execute _ _ h hl he := h.of_live hl (execAt_effect he).pins_eq (execAt_effect he).iop_kept

/-! ### Nothing reads `STATUS` or `FAULT_ADDR` -/

/-- Two states that agree in all an execute phase reads: the parameters, `ACC`, `PC` and memory. -/
structure State.AgreesOffStatus (s s' : State g) : Prop where
  cfg : s'.cfg = s.cfg
  acc : s'.acc = s.acc
  pc : s'.pc = s.pc
  mem : s'.mem = s.mem

namespace State.AgreesOffStatus

variable {s' : State g}

theorem setAcc (h : s.AgreesOffStatus s') (v : Word g) : (s.setAcc v).AgreesOffStatus (s'.setAcc v) :=
  { h with acc := rfl }

theorem raiseFault (h : s.AgreesOffStatus s') (c c' : Cause) (x x' : Nat) :
    (s.raiseFault c x).AgreesOffStatus (s'.raiseFault c' x') := { h with }

/-- Both states read the same word of an operand, or both fault. -/
theorem withOperand (h : s.AgreesOffStatus s') (a : Nat) {k k' : Word g → State g}
    (hk : ∀ w, (k w).AgreesOffStatus (k' w)) : (s.withOperand a k).AgreesOffStatus (s'.withOperand a k') := by
  rcases s.withOperand_cases a k with ⟨ha, e⟩ | ⟨ha, e⟩ <;>
    rcases s'.withOperand_cases a k' with ⟨ha', e'⟩ | ⟨ha', e'⟩ <;> rw [h.cfg] at ha' <;> rw [e, e']
  · exact h.mem ▸ hk _
  · omega
  · omega
  · exact h.raiseFault _ _ _ _

/-- Both states store to an operand, or both fault. -/
theorem storeOperand (h : s.AgreesOffStatus s') (a : Nat) (v : Word g) :
    (s.storeOperand a v).AgreesOffStatus (s'.storeOperand a v) := by
  rcases s.storeOperand_cases a v with ⟨ha, e⟩ | ⟨ha, e⟩ <;>
    rcases s'.storeOperand_cases a v with ⟨ha', e'⟩ | ⟨ha', e'⟩ <;> rw [h.cfg] at ha' <;> rw [e, e']
  · exact { h with mem := by simp [h.mem] }
  · omega
  · omega
  · exact h.raiseFault _ _ _ _

/-- Both states report an invalid opcode, or both fault. -/
theorem invalidOpcode (h : s.AgreesOffStatus s') : s.invalidOpcode.AgreesOffStatus s'.invalidOpcode := by
  unfold State.invalidOpcode
  rw [h.cfg]
  cases s.cfg.policy with
  | lenient => exact { h with }
  | strict => exact h.raiseFault _ _ _ _

/-- An execute phase takes states that agree to states that agree. -/
theorem execAt {t u : State g} (h : s.AgreesOffStatus s') (ht : execAt i s = .next t)
    (hu : Machine.execAt i s' = .next u) : t.AgreesOffStatus u := by
  cases i with
  | lda a => cases ht; cases hu; exact h.withOperand a fun w => h.setAcc w
  | add a => cases ht; cases hu; exact h.withOperand a fun w => h.acc ▸ h.setAcc _
  | sub a => cases ht; cases hu; exact h.withOperand a fun w => h.acc ▸ h.setAcc _
  | jnz a =>
    cases ht; cases hu
    rw [h.acc]
    split
    · exact { h with pc := rfl }
    · exact h
  | sta a => cases ht; cases hu; exact h.acc ▸ h.storeOperand a _
  | hlt => cases ht; cases hu; exact { h with }
  | invalidOp6 => cases ht; cases hu; exact h.invalidOpcode
  | invalidOp7 => cases ht; cases hu; exact h.invalidOpcode

end State.AgreesOffStatus

/-! ### The layout of `STATUS` -/

/-- The flags stand in the three low bits (10_state.md R39). -/
theorem Status.bits_flags (st : Status) :
    st.bits.getLsbD 0 = st.halted ∧ st.bits.getLsbD 1 = st.faulted ∧ st.bits.getLsbD 2 = st.iop := by
  obtain ⟨halted, faulted, iop, cause⟩ := st
  cases cause <;> revert halted faulted iop <;> decide

/-- The cause stands above the flags (10_state.md R39). -/
theorem Status.bits_cause (st : Status) : st.bits.extractLsb' 3 2 = st.cause.code :=
  BitVec.extractLsb'_append_eq_left

end Sys2Proof.Machine

namespace Sys2Proof.Proofs

open Sys2Proof.Machine

/-- Settles O41: every part of the cycle keeps what is set in `STATUS`, so every step and every clock edge does. -/
theorem statusBitsAreClearedByResetOnly : Obligations.StatusBitsAreClearedByResetOnly := by
  intro s t hrst h
  have hkept : StatusKept s t := by
    rw [← stepAt_eq_step, ← edgeAt_eq_edge] at h
    exact h.elim ((cycleKeeps_status s).step (.refl hrst)) ((cycleKeeps_status s).edge (.refl hrst))
  exact ⟨hkept.iop, hkept.halted, hkept.faulted⟩

/-- Settles O42: states that differ in `STATUS` and `FAULT_ADDR` only agree in all an execute phase reads. -/
theorem statusIsNeverRead : Obligations.StatusIsNeverRead := by
  intro i s t u st fa ht hu
  rw [← execAt_default] at ht hu
  have hs : s.AgreesOffStatus { s with status := st, faultAddr := fa } := ⟨rfl, rfl, rfl, rfl⟩
  obtain ⟨-, hacc, hpc, hmem⟩ := hs.execAt ht hu
  exact ⟨hacc, hpc, hmem⟩

/-- Settles O43: a reset aside, only the execute phase of a fetched load, addition or subtraction writes `ACC`. -/
theorem onlyLoadAndArithmeticWriteAcc : Obligations.OnlyLoadAndArithmeticWriteAcc := by
  intro s t hp h hne
  rw [← stepAt_eq_step] at h
  rcases stepWith_boundary_cases hp h with ⟨hr, -⟩ | ⟨-, rfl⟩ | ⟨-, rfl⟩ | ⟨hf, u, hu, rfl⟩
  · exact .inl hr
  · exact absurd rfl hne
  · exact absurd rfl hne
  · exact .inr ⟨hf, (execAt_effect hu).acc_ne hne⟩

/-- Settles O44: after the fetch has moved `PC`, only a taken jump writes it, to an operand that `PC` can hold. -/
theorem pcMovesByFetchAndTakenJnzOnly : Obligations.PcMovesByFetchAndTakenJnzOnly := by
  intro s t hf h
  rw [← stepAt_eq_step, stepAt, stepWith_of_fetches hf] at h
  obtain ⟨u, hu, rfl⟩ := executePhase_next h
  rcases (execAt_effect hu).pc_eq_or_jump with hpc | ⟨a, ha, hz, hpc⟩
  · exact .inl hpc
  · exact .inr ⟨a, ha, hz, (congrArg BitVec.toNat hpc).trans (jumpTarget_toNat (decode_jnz_lt ha))⟩

/-- Settles O45: the increment stays at `N` or below, and a decoded target fits the `addr` field. -/
theorem pcNeverWraps : Obligations.PcNeverWraps := by
  intro g s w hp
  refine ⟨fun hN => ?_, fun a ha => ?_⟩
  · have hpc := State.pc_succ_toNat hp hN
    exact ⟨hpc, hpc.trans_le hN⟩
  · have hlt := decode_jnz_lt ha
    exact ⟨Nat.le_pred_of_lt hlt, jumpTarget_toNat hlt⟩

/-- Settles O57: the flags and the cause in the word, and the codes by definition. -/
theorem statusWordLayout : Obligations.StatusWordLayout :=
  ⟨fun st => ⟨st.bits_flags.1, st.bits_flags.2.1, st.bits_flags.2.2, st.bits_cause⟩, rfl, rfl, rfl, rfl⟩

end Sys2Proof.Proofs

/-! Two memories in canonical form that read alike are one list, and writes to other cells keep a word; what the
instructions that access memory answer inside it; only `STA` changes a cell. -/

namespace Sys2Proof.Machine

variable {g : Geometry} {ex : Instr → State g → Result g} {s t u : State g} {i : Instr}

/-! ### The memory's list -/

@[simp] theorem Memory.read_cons_self (k : Nat) (v : Word g) (m : Memory g) : Memory.read ((k, v) :: m) k = v :=
  if_pos rfl

theorem Memory.read_cons_of_ne {k a : Nat} (h : k ≠ a) (v : Word g) (m : Memory g) :
    Memory.read ((k, v) :: m) a = Memory.read m a :=
  if_neg h

/-- Writes to other cells keep the word of a cell. -/
theorem Memory.read_foldl_write_other {a : Nat} {cs : List (Nat × Word g)} (h : ∀ c ∈ cs, c.1 ≠ a) (m : Memory g) :
    Memory.read (cs.foldl (fun m c => Memory.write m c.1 c.2) m) a = Memory.read m a := by
  induction cs generalizing m with
  | nil => rfl
  | cons c cs ih =>
    obtain ⟨hc, hcs⟩ := List.forall_mem_cons.1 h
    exact (ih hcs _).trans (Memory.read_write_other hc.symm)

/-- A list starts at or below every listed cell of a list that reads alike. -/
theorem Memory.head_le_of_read_eq {n lo lo' k k' : Nat} {v v' : Word g} {m m' : Memory g}
    (h : Memory.wfFrom n lo ((k, v) :: m) = true) (h' : Memory.wfFrom n lo' ((k', v') :: m') = true)
    (heq : ∀ a, Memory.read ((k, v) :: m) a = Memory.read ((k', v') :: m') a) : k' ≤ k := by
  obtain ⟨-, -, hv, -⟩ := Memory.wfFrom_cons.1 h
  by_contra hlt
  have hfrom : Memory.wfFrom n k' ((k', v') :: m') = true :=
    Memory.wfFrom_cons.2 ⟨le_rfl, (Memory.wfFrom_cons.1 h').2⟩
  have hk := (heq k).trans (Memory.read_below hfrom (Nat.not_le.1 hlt))
  exact hv ((Memory.read_cons_self k v m).symm.trans hk)

/-- Two lists in canonical form that read alike at every address are the same list. -/
theorem Memory.eq_of_read_eq {n lo : Nat} {m m' : Memory g} (h : Memory.wfFrom n lo m = true)
    (h' : Memory.wfFrom n lo m' = true) (heq : ∀ a, Memory.read m a = Memory.read m' a) : m = m' := by
  induction m generalizing lo m' with
  | nil =>
    cases m' with
    | nil => rfl
    | cons c' m' =>
      obtain ⟨k', v'⟩ := c'
      obtain ⟨-, -, hv', -⟩ := Memory.wfFrom_cons.1 h'
      exact absurd ((heq k').trans (Memory.read_cons_self k' v' m')).symm hv'
  | cons c m ih =>
    obtain ⟨k, v⟩ := c
    obtain ⟨-, -, hv, hm⟩ := Memory.wfFrom_cons.1 h
    cases m' with
    | nil => exact absurd ((Memory.read_cons_self k v m).symm.trans (heq k)) hv
    | cons c' m' =>
      obtain ⟨k', v'⟩ := c'
      obtain ⟨-, -, -, hm'⟩ := Memory.wfFrom_cons.1 h'
      obtain rfl : k = k' :=
        le_antisymm (Memory.head_le_of_read_eq h' h fun a => (heq a).symm) (Memory.head_le_of_read_eq h h' heq)
      obtain rfl : v = v' := by simpa using heq k
      have htail : ∀ a, Memory.read m a = Memory.read m' a := by
        intro a
        rcases Nat.lt_or_ge k a with ha | ha
        · have hne : k ≠ a := Nat.ne_of_lt ha
          rw [← Memory.read_cons_of_ne hne v m, heq a, Memory.read_cons_of_ne hne]
        · rw [Memory.read_below hm (Nat.lt_succ_of_le ha), Memory.read_below hm' (Nat.lt_succ_of_le ha)]
      rw [ih hm hm' htail]

/-! ### Accesses inside the memory -/

@[simp] theorem State.withOperand_of_lt {a : Nat} (h : a < s.cfg.capacity) (k : Word g → State g) :
    s.withOperand a k = k (Memory.read s.mem a) := by
  simp [State.withOperand, h]

@[simp] theorem State.storeOperand_of_lt {a : Nat} (h : a < s.cfg.capacity) (v : Word g) :
    s.storeOperand a v = { s with mem := Memory.write s.mem a v } := by
  simp [State.storeOperand, h]

theorem execAt_lda_of_lt {a : Nat} (h : a < s.cfg.capacity) :
    execAt (.lda a) s = .next (s.setAcc (Memory.read s.mem a)) := by
  simp [execAt, execLda, h]

theorem execAt_add_of_lt {a : Nat} (h : a < s.cfg.capacity) :
    execAt (.add a) s = .next (s.setAcc (aluAdd s.acc (Memory.read s.mem a))) := by
  simp [execAt, execAdd, h]

theorem execAt_sub_of_lt {a : Nat} (h : a < s.cfg.capacity) :
    execAt (.sub a) s = .next (s.setAcc (aluSub s.acc (Memory.read s.mem a))) := by
  simp [execAt, execSub, h]

theorem execAt_sta_of_lt {a : Nat} (h : a < s.cfg.capacity) :
    execAt (.sta a) s = .next { s with mem := Memory.write s.mem a s.acc } := by
  simp [execAt, execSta, h]

theorem executePhase_of_next (h : ex s.decoded s = .next u) : executePhase ex s = .next { u with phase := .fetch } := by
  simp [executePhase, h]

/-- A fetched `STA` inside the memory stores `ACC`, past the fetch's writes (41_load_store.md R153). -/
theorem stepAt_of_fetches_sta {a : Nat} (hf : s.fetches = true) (ha : a < s.cfg.capacity)
    (hd : decode s.cfg.opcodeMap s.fetchedWord = .sta a) :
    stepAt s = .next { s.afterFetch with mem := Memory.write s.mem a s.acc, phase := .fetch } := by
  have hx : execAt (decode s.cfg.opcodeMap s.fetchedWord) { s.afterFetch with phase := .execute } =
      .next { s.afterFetch with mem := Memory.write s.mem a s.acc, phase := .execute } :=
    hd ▸ execAt_sta_of_lt ha
  rw [stepAt, stepWith_of_fetches hf]
  exact executePhase_of_next hx

/-- An execute phase changes a cell only as `STA` of that cell, inside the memory (20_memory.md R62). -/
theorem ExecEffect.read_mem_ne {b : Nat} (h : ExecEffect s i t) (hne : Memory.read t.mem b ≠ Memory.read s.mem b) :
    i = .sta b ∧ b < s.cfg.capacity := by
  cases h
  case sta a ha =>
    obtain rfl : b = a := by_contra fun hab => hne (Memory.read_write_other hab)
    exact ⟨rfl, ha⟩
  all_goals exact absurd rfl hne

/-! ### The memory port -/

/-- The port carries an address below the capacity whole (20_memory.md R72). -/
theorem State.portAddr_toNat {a : Nat} (hp : s.cfg.Legal g) (ha : a < s.cfg.capacity) :
    (BitVec.ofNat g.ADW a).toNat = a :=
  (BitVec.toNat_ofNat ..).trans (Nat.mod_eq_of_lt (State.lt_of_lt_capacity hp ha))

theorem State.driveRead_of_lt {a : Nat} (h : a < s.cfg.capacity) : s.driveRead a = .read (BitVec.ofNat g.ADW a) :=
  if_pos h

theorem State.driveRead_of_le {a : Nat} (h : s.cfg.capacity ≤ a) : s.driveRead a = .idle :=
  if_neg (Nat.not_lt.2 h)

theorem State.driveWrite_of_lt {a : Nat} {v : Word g} (h : a < s.cfg.capacity) :
    s.driveWrite a v = .write (BitVec.ofNat g.ADW a) v :=
  if_pos h

theorem State.driveWrite_of_le {a : Nat} {v : Word g} (h : s.cfg.capacity ≤ a) : s.driveWrite a v = .idle :=
  if_neg (Nat.not_lt.2 h)

/-- `LDA`, `ADD` and `SUB` read their operand (R71). -/
theorem State.driveData_eq_driveRead {a : Nat} (hi : i = .lda a ∨ i = .add a ∨ i = .sub a) :
    s.driveData i = s.driveRead a := by
  rcases hi with rfl | rfl | rfl <;> rfl

/-- No access out of range (R72). -/
theorem State.driveData_of_le {a : Nat} (hi : i = .lda a ∨ i = .add a ∨ i = .sub a ∨ i = .sta a)
    (ha : s.cfg.capacity ≤ a) : s.driveData i = .idle := by
  rcases hi with rfl | rfl | rfl | rfl
  · exact State.driveRead_of_le ha
  · exact State.driveRead_of_le ha
  · exact State.driveRead_of_le ha
  · exact State.driveWrite_of_le ha

/-- `JNZ`, `HLT` and the invalid opcodes have no data access (R71). -/
theorem State.driveData_eq_idle (hi : (∃ a, i = .jnz a) ∨ i = .hlt ∨ i = .invalidOp6 ∨ i = .invalidOp7) :
    s.driveData i = .idle := by
  rcases hi with ⟨a, rfl⟩ | rfl | rfl | rfl <;> rfl

/-- The host may touch cells exactly when no instruction is running or about to run (R81). -/
theorem State.idle_eq_not_ready (s : State g) : s.idle = !s.ready := by
  unfold State.idle State.ready
  cases s.pins.rst <;> cases s.wasReset <;> cases s.live <;> simp

theorem State.not_idle_of_ready (h : s.ready = true) : ¬s.idle = true := by
  simp [State.idle_eq_not_ready, h]

/-- No strobe where the core is not ready (R240, R243, R250 of 70_reset_and_hazards.md). -/
theorem State.portDrive_of_not_ready (h : s.ready = false) : s.portDrive = .idle :=
  if_pos (show s.idle = true by simp [State.idle_eq_not_ready, h])

/-! The port of a ready core goes by the phase (R71). -/

theorem State.portDrive_fetch (h : s.ready = true) (hp : s.phase = .fetch) :
    s.portDrive = s.driveRead s.pc.toNat :=
  (if_neg (State.not_idle_of_ready h)).trans (by rw [hp])

theorem State.portDrive_execute (h : s.ready = true) (hp : s.phase = .execute) :
    s.portDrive = s.driveData s.decoded :=
  (if_neg (State.not_idle_of_ready h)).trans (by rw [hp])

theorem State.portDrive_decode (hp : s.phase = .decode) : s.portDrive = .idle := by
  cases h : s.ready with
  | false => exact State.portDrive_of_not_ready h
  | true => exact (if_neg (State.not_idle_of_ready h)).trans (by rw [hp])

/-- A read inside the memory strobes its cell and takes the cell's word from the port (R70). -/
theorem State.portDrive_reads {a : Nat} (hp : s.cfg.Legal g) (ha : a < s.cfg.capacity)
    (hd : s.portDrive = s.driveRead a) :
    ∃ x, s.portDrive = .read x ∧ x.toNat = a ∧ s.memRdata = some (Memory.read s.mem a) := by
  have hr : s.portDrive = .read (BitVec.ofNat g.ADW a) := hd.trans (State.driveRead_of_lt ha)
  have hx := State.portAddr_toNat hp ha
  exact ⟨_, hr, hx, by simp [State.memRdata, hr, hx, ha]⟩

/-! Every strobed address is a cell of the memory (R72). -/

theorem State.memAddr_driveRead_lt {a : Nat} {x : BitVec g.ADW} (hp : s.cfg.Legal g)
    (h : memAddr (s.driveRead a) = some x) : x.toNat < s.cfg.capacity := by
  rcases Nat.lt_or_ge a s.cfg.capacity with ha | ha
  · rw [State.driveRead_of_lt ha] at h
    cases h
    rwa [State.portAddr_toNat hp ha]
  · rw [State.driveRead_of_le ha] at h
    cases h

theorem State.memAddr_driveWrite (s : State g) (a : Nat) (v : Word g) :
    memAddr (s.driveWrite a v) = memAddr (s.driveRead a) := by
  unfold State.driveWrite State.driveRead
  split <;> rfl

theorem State.memAddr_driveData_lt {x : BitVec g.ADW} (hp : s.cfg.Legal g) (h : memAddr (s.driveData i) = some x) :
    x.toNat < s.cfg.capacity := by
  cases i with
  | lda a | add a | sub a => exact State.memAddr_driveRead_lt hp h
  | sta a => exact State.memAddr_driveRead_lt hp (State.memAddr_driveWrite s a s.acc ▸ h)
  | jnz a | hlt | invalidOp6 | invalidOp7 => cases h

theorem State.memAddr_portDrive_lt {x : BitVec g.ADW} (hp : s.cfg.Legal g) (h : memAddr s.portDrive = some x) :
    x.toNat < s.cfg.capacity := by
  cases hr : s.ready with
  | false =>
    rw [State.portDrive_of_not_ready hr] at h
    cases h
  | true =>
    cases hph : s.phase with
    | fetch => exact State.memAddr_driveRead_lt hp (State.portDrive_fetch hr hph ▸ h)
    | decode =>
      rw [State.portDrive_decode hph] at h
      cases h
    | execute => exact State.memAddr_driveData_lt hp (State.portDrive_execute hr hph ▸ h)

/-! ### The port over a clock edge -/

theorem memAfter_driveRead (m : Memory g) (s : State g) (a : Nat) : memAfter m (s.driveRead a) = m := by
  unfold State.driveRead
  split <;> rfl

theorem memAfter_driveWrite_of_lt {a : Nat} (hp : s.cfg.Legal g) (ha : a < s.cfg.capacity) (m : Memory g) (v : Word g) :
    memAfter m (s.driveWrite a v) = Memory.write m a v := by
  rw [State.driveWrite_of_lt ha, memAfter, State.portAddr_toNat hp ha]

/-- An execute phase writes to memory what its strobe writes (R70, R71). -/
theorem ExecEffect.mem_eq_memAfter (hp : s.cfg.Legal g) (h : ExecEffect s i t) :
    t.mem = memAfter s.mem (s.driveData i) := by
  cases h with
  | lda _ | add _ | sub _ => exact (memAfter_driveRead s.mem s _).symm
  | sta ha => exact (memAfter_driveWrite_of_lt hp ha s.mem s.acc).symm
  | jump _ | pass _ | hlt => rfl
  | report hi _ | trap hi _ => rw [State.driveData_eq_idle (.inr (.inr hi))]; rfl
  | outOfRange hi ha => rw [State.driveData_of_le hi ha]; rfl

/-- The word that an execute phase reads inside the memory is the operand of its result (41_load_store.md R150,
42_arithmetic.md R170, R172). -/
theorem acc_of_execAt_read {a : Nat} (ha : a < s.cfg.capacity) (h : execAt i s = .next t) :
    (i = .lda a → t.acc = Memory.read s.mem a) ∧ (i = .add a → t.acc = s.acc + Memory.read s.mem a) ∧
      (i = .sub a → t.acc = s.acc - Memory.read s.mem a) := by
  refine ⟨?_, ?_, ?_⟩ <;> rintro rfl
  · cases (execAt_lda_of_lt ha).symm.trans h
    rfl
  · cases (execAt_add_of_lt ha).symm.trans h
    rfl
  · cases (execAt_sub_of_lt ha).symm.trans h
    rfl

/-! The clock edge of a ready core is the phase it stands in, with the pulse over (40_cycle.md R130). -/

theorem edgeWith_fetch (h : s.ready = true) (hp : s.phase = .fetch) :
    edgeWith ex s = .next s.dropPulse.fetchPhase := by
  simp only [State.ready, Bool.and_eq_true, Bool.not_eq_true'] at h
  simp [edgeWith, h, hp]

theorem edgeWith_decode (h : s.ready = true) (hp : s.phase = .decode) :
    edgeWith ex s = .next s.dropPulse.decodePhase := by
  simp only [State.ready, Bool.and_eq_true, Bool.not_eq_true'] at h
  simp [edgeWith, h, hp]

theorem edgeWith_execute (h : s.ready = true) (hp : s.phase = .execute) :
    edgeWith ex s = executePhase ex s.dropPulse := by
  simp only [State.ready, Bool.and_eq_true, Bool.not_eq_true'] at h
  simp [edgeWith, h, hp]

theorem edgeWith_mem_of_not_ready (hr : s.ready = false) (h : edgeWith ex s = .next t) : t.mem = s.mem := by
  rcases edgeWith_cases ex s with ⟨-, e⟩ | ⟨-, -, e⟩ | ⟨-, -, -, e⟩ | ⟨-, -, -, -, e⟩ | ⟨hr', -⟩ | ⟨hr', -⟩ | ⟨hr', -⟩
  · cases e.symm.trans h; rfl
  · cases e.symm.trans h
  · cases e.symm.trans h; rfl
  · cases e.symm.trans h; rfl
  all_goals rw [hr] at hr'; cases hr'

theorem State.fetchPhase_mem (s : State g) : s.fetchPhase.mem = s.mem := by
  rcases s.fetchPhase_cases with ⟨-, e⟩ | ⟨-, e⟩ <;> simp [e]

/-- Memory after a clock edge is what the port's strobe makes of it (R70). -/
theorem edgeAt_mem_eq_memAfter (hp : s.cfg.Legal g) (h : edgeAt s = .next t) :
    t.mem = memAfter s.mem s.portDrive := by
  cases hr : s.ready with
  | false =>
    rw [State.portDrive_of_not_ready hr]
    exact edgeWith_mem_of_not_ready hr h
  | true =>
    cases hph : s.phase with
    | fetch =>
      rw [State.portDrive_fetch hr hph, memAfter_driveRead]
      cases (edgeWith_fetch hr hph).symm.trans h
      exact State.fetchPhase_mem s.dropPulse
    | decode =>
      rw [State.portDrive_decode hph]
      cases (edgeWith_decode hr hph).symm.trans h
      rfl
    | execute =>
      rw [State.portDrive_execute hr hph]
      obtain ⟨u, hu, rfl⟩ := executePhase_next ((edgeWith_execute hr hph).symm.trans h)
      exact (execAt_effect hu).mem_eq_memAfter (s := s.dropPulse) (t := u) hp

/-- The fetch of a clock edge takes `IR` from the cell at `PC` (40_cycle.md R131). -/
theorem edgeAt_fetch_ir (hf : s.fetches = true) (h : edgeAt s = .next t) : t.ir = s.fetchedWord := by
  obtain ⟨hr, hph, hN⟩ := State.fetches_iff.1 hf
  cases (edgeWith_fetch hr hph).symm.trans h
  exact congrArg State.ir (State.fetchPhase_of_lt (s := s.dropPulse) hN)

end Sys2Proof.Machine

namespace Sys2Proof.Proofs

open Sys2Proof.Machine

/-- Settles O28: the write succeeds inside the memory, and writes to other cells keep the word. -/
theorem storeThenLoad : Obligations.StoreThenLoad := by
  intro g s a v between hwf ha hother
  have hread := (Memory.read_foldl_write_other hother (Memory.write s.mem a v)).trans (Memory.read_write_same hwf)
  exact ⟨_, State.memWrite_of_lt ha, (if_pos ha).trans (congrArg some hread)⟩

/-- Settles O29: lists that read alike inside the memory read alike everywhere, and such lists are one. -/
theorem memoryFormIsCanonical : Obligations.MemoryFormIsCanonical := by
  intro g n m m' h h' heq
  refine Memory.eq_of_read_eq h h' fun a => ?_
  rcases Nat.lt_or_ge a n with ha | ha
  · exact heq a ha
  · rw [Memory.read_above h ha, Memory.read_above h' ha]

/-- Settles O32: the step leaves `ACC`'s word in the cell, and a fetch reads the cell at `PC`. -/
theorem fetchSeesTheStore : Obligations.FetchSeesTheStore := by
  intro s a hf hwf ha hd
  have hstep := (stepAt_eq_step s).symm.trans (stepAt_of_fetches_sta hf ha hd)
  have hread : Memory.read (Memory.write s.mem a s.acc) a = s.acc := Memory.read_write_same hwf
  exact ⟨_, hstep, fun p hp => hp ▸ hread, fun hp => hp ▸ hread⟩

/-- Settles O46: of what a step from a boundary can do, only the execute phase of a fetched `STA` writes memory. -/
theorem onlyStaWritesMemory : Obligations.OnlyStaWritesMemory := by
  intro s t b hp h hne
  rw [← stepAt_eq_step] at h
  rcases stepWith_boundary_cases hp h with ⟨-, rfl⟩ | ⟨-, rfl⟩ | ⟨-, rfl⟩ | ⟨hf, u, hu, rfl⟩
  · exact absurd rfl hne
  · exact absurd rfl hne
  · exact absurd rfl hne
  · exact ⟨hf, (execAt_effect hu).read_mem_ne hne⟩

/-- Settles O56: the port goes by the phase, as the clock edge does, and in range it carries the operand's address whole. -/
theorem portCarriesEveryAccess : Obligations.PortCarriesEveryAccess := by
  intro g s t hp h
  refine ⟨edgeAt_mem_eq_memAfter hp h, fun a => State.memAddr_portDrive_lt hp, fun hf => ?_, fun hr hph => ?_, ?_⟩
  · obtain ⟨hr, hph, hN⟩ := State.fetches_iff.1 hf
    rw [edgeAt_fetch_ir hf h]
    exact State.portDrive_reads hp hN (State.portDrive_fetch hr hph)
  · have hd := State.portDrive_execute hr hph
    refine ⟨fun a hi ha => ?_, fun a hi ha => ?_, fun a hi ha => ?_, fun hi => ?_⟩
    · obtain ⟨x, hx, hxa, hw⟩ := State.portDrive_reads hp ha (hd.trans (State.driveData_eq_driveRead hi))
      obtain ⟨u, hu, rfl⟩ := executePhase_next ((edgeWith_execute hr hph).symm.trans h)
      exact ⟨x, _, hx, hxa, hw, acc_of_execAt_read (s := s.dropPulse) (t := u) ha hu⟩
    · rw [hd, hi]
      exact ⟨_, State.driveWrite_of_lt ha, State.portAddr_toNat hp ha⟩
    · exact hd.trans (State.driveData_of_le hi ha)
    · exact hd.trans (State.driveData_eq_idle hi)
  · rintro (hph | hr)
    · exact State.portDrive_decode hph
    · exact State.portDrive_of_not_ready hr

end Sys2Proof.Proofs

/-! The statements of the family 30_encoding.md: the fields of a word and the opcode map, the assembler, the listing. -/

namespace Sys2Proof.Laws

variable {g : Geometry} {m : OpcodeMap} {i : Instr}

/-! ### The opcode map -/

/-- `i` with the operand `a`; `HLT` and the invalid opcodes have none and stay. -/
def setOperand (a : Nat) : Instr → Instr
  | .lda _ => .lda a
  | .add _ => .add a
  | .sub _ => .sub a
  | .jnz _ => .jnz a
  | .sta _ => .sta a
  | .hlt => .hlt
  | .invalidOp6 => .invalidOp6
  | .invalidOp7 => .invalidOp7

@[simp] theorem setOperand_operand (i : Instr) : setOperand i.operand i = i := by
  cases i <;> rfl

@[simp] theorem codeOf_setOperand (m : OpcodeMap) (a : Nat) (i : Instr) : codeOf m (setOperand a i) = codeOf m i := by
  cases i <;> rfl

/-- A code that fits the `op` field is its own value there. -/
theorem toNat_ofNat_codeOf (m : OpcodeMap) (i : Instr) : (BitVec.ofNat opw (codeOf m i)).toNat = codeOf m i :=
  (BitVec.toNat_ofNat ..).trans (Nat.mod_eq_of_lt (codeOf_lt m i))

/-- The decoder finds the instruction of each code (30_encoding.md R93, R95): the codes are different, so the tests
before its own fail. -/
theorem decodeOp_of_code (hm : m.Bijective) {op : Opcode} (h : op.toNat = codeOf m i) (a : Nat) :
    decodeOp m op a = setOperand a i := by
  have hne := codes_ne hm
  cases i
  all_goals
    simp only [codeOf] at h
    simp only [decodeOp, setOperand, h]
    grind

/-- Under a legal map every value of the `op` field is the code of an instruction (R94, R95). -/
theorem exists_code (hm : m.Bijective) (op : Opcode) : ∃ i, op.toNat = codeOf m i := by
  have hlt : op.toNat < 8 := op.isLt
  obtain h | h | h : op.toNat = 7 ∨ op.toNat = 6 ∨ op.toNat < 6 := by omega
  · exact ⟨.invalidOp7, h⟩
  · exact ⟨.invalidOp6, h⟩
  · rcases codes_cover hm h with h | h | h | h | h | h
    · exact ⟨.lda 0, h⟩
    · exact ⟨.add 0, h⟩
    · exact ⟨.sub 0, h⟩
    · exact ⟨.jnz 0, h⟩
    · exact ⟨.sta 0, h⟩
    · exact ⟨.hlt, h⟩

/-- The decoded instruction's code is the value of the `op` field. -/
theorem codeOf_decodeOp (hm : m.Bijective) (op : Opcode) (a : Nat) : codeOf m (decodeOp m op a) = op.toNat := by
  obtain ⟨i, hi⟩ := exists_code hm op
  rw [decodeOp_of_code hm hi, codeOf_setOperand, hi]

/-! ### The fields of a word -/

theorem getLsbD_opField (w : Word g) {k : Nat} (hk : k < opw) : (opField w).getLsbD k = w.getLsbD (g.W - opw + k) := by
  simp [opField, hk]

theorem getLsbD_operandField (w : Word g) {k : Nat} (hk : k < g.ADW) : (operandField w).getLsbD k = w.getLsbD k := by
  simp [operandField, hk, hk.trans (Nat.lt_succ_self _)]

/-- The `op` field is the word's quotient (R91). -/
theorem opField_toNat (w : Word g) : (opField w).toNat = w.toNat / 2 ^ (g.W - opw) := by
  have hfits := g.fits
  have hW : 2 ^ g.W = 2 ^ (g.W - opw) * 2 ^ opw := by rw [← Nat.pow_add, Nat.sub_add_cancel (by omega)]
  have hlt : w.toNat / 2 ^ (g.W - opw) < 2 ^ opw := Nat.div_lt_of_lt_mul (hW ▸ w.isLt)
  rw [opField, BitVec.extractLsb'_toNat, Nat.shiftRight_eq_div_pow, Nat.mod_eq_of_lt hlt]

/-- The operand is the word's remainder (R92). -/
theorem operandField_toNat (w : Word g) : (operandField w).toNat = w.toNat % 2 ^ g.ADW := by
  have hlt : w.toNat % 2 ^ g.ADW < 2 ^ g.pcw :=
    (Nat.mod_lt _ (Nat.two_pow_pos _)).trans (Nat.pow_lt_pow_right (by decide) (Nat.lt_succ_self _))
  rw [operandField, BitVec.toNat_setWidth, BitVec.extractLsb'_toNat, Nat.shiftRight_zero, Nat.mod_eq_of_lt hlt]

/-- The decoder looks at the bits of the two fields only (R96). -/
theorem fields_eq_of_bits {w w' : Word g}
    (h : ∀ k, k < g.W → (k < g.ADW ∨ g.W - opw ≤ k) → w.getLsbD k = w'.getLsbD k) :
    opField w = opField w' ∧ operandField w = operandField w' := by
  have hfits := g.fits
  constructor
  · refine BitVec.eq_of_getLsbD_eq fun k hk => ?_
    rw [getLsbD_opField w hk, getLsbD_opField w' hk]
    exact h _ (by omega) (.inr (Nat.le_add_right _ _))
  · unfold operandField
    congr 1
    refine BitVec.eq_of_getLsbD_eq fun k hk => ?_
    simpa [hk] using h k (by omega) (.inl hk)

/-- A word is its two fields and the unused bits between them (R91, R92, R96). -/
theorem word_ext {w w' : Word g} (hop : opField w = opField w') (ha : operandField w = operandField w')
    (hmid : ∀ k, g.ADW ≤ k → k < g.W - opw → w.getLsbD k = w'.getLsbD k) : w = w' := by
  refine BitVec.eq_of_getLsbD_eq fun k hk => ?_
  rcases Nat.lt_or_ge k g.ADW with hlow | hlow
  · rw [← getLsbD_operandField w hlow, ← getLsbD_operandField w' hlow, ha]
  · rcases Nat.lt_or_ge k (g.W - opw) with hmidk | hhigh
    · exact hmid k hlow hmidk
    · have hsub : k - (g.W - opw) < opw := by omega
      rw [← Nat.add_sub_cancel' hhigh, ← getLsbD_opField w hsub, ← getLsbD_opField w' hsub, hop]

/-- The encoder writes 0 to the unused bits (R96, R102). -/
theorem getLsbD_encode_unused (g : Geometry) (m : OpcodeMap) (i : Instr) {k : Nat} (hlow : g.ADW ≤ k)
    (hhigh : k < g.W - opw) : (encode g m i).getLsbD k = false := by
  have hk : k - g.ADW < g.W - opw - g.ADW := by omega
  simp [encode, BitVec.getLsbD_append, Nat.not_lt.2 hlow, hk]

/-! ### Decode and encode -/

/-- Decode after encode gives the instruction back wherever its operand fits the field (R101). -/
theorem decode_encode (hm : m.Bijective) (hi : i.wellFormed g = true) : decode m (encode g m i) = i := by
  have hop : (opField (encode g m i)).toNat = codeOf m i := opField_encode g m i ▸ toNat_ofNat_codeOf m i
  have ha := operandField_encode g m i (operand_lt_of_wellFormed hi)
  rw [decode, decodeOp_of_code hm hop, ha, setOperand_operand]

/-- A valid instruction's operand fits the field of a legal memory (R98, R101). -/
theorem wellFormed_of_valid {n : Nat} (hn : n ≤ 2 ^ g.ADW) (h : i.valid n = true) : i.wellFormed g = true := by
  cases i <;> simp only [Instr.valid, Instr.wellFormed, decide_eq_true_eq] at h ⊢ <;> omega

end Sys2Proof.Laws

namespace Sys2Proof.Proofs

open Sys2Proof.Laws

/-- Settles O1: a valid operand fits the field, and the fields of an encoded word are the code and the operand. -/
theorem decodeEncodeRoundTrip : Obligations.DecodeEncodeRoundTrip := by
  rintro g p i ⟨-, hN, hm⟩
  exact ⟨wellFormed_of_valid hN, decode_encode hm⟩

/-- Settles O2: the fields as quotient and remainder, and the instruction of each of the eight codes. -/
theorem decodeFollowsTheOpcodeMap : Obligations.DecodeFollowsTheOpcodeMap := fun _ _ w hm =>
  ⟨opField_toNat w, operandField_toNat w,
    fun h => decodeOp_of_code (i := .lda 0) hm h _, fun h => decodeOp_of_code (i := .add 0) hm h _,
    fun h => decodeOp_of_code (i := .sub 0) hm h _, fun h => decodeOp_of_code (i := .jnz 0) hm h _,
    fun h => decodeOp_of_code (i := .sta 0) hm h _, fun h => decodeOp_of_code (i := .hlt) hm h _,
    fun h => decodeOp_of_code (i := .invalidOp6) hm h _, fun h => decodeOp_of_code (i := .invalidOp7) hm h _⟩

/-- Settles O3: the decoder reads the two fields only, and the encoder writes 0 between them. -/
theorem unusedWordBitsAreIgnored : Obligations.UnusedWordBitsAreIgnored := by
  refine ⟨fun g m w w' h => ?_, fun g m i k hlow hhigh => getLsbD_encode_unused g m i hlow hhigh, ?_⟩
  · obtain ⟨hop, ha⟩ := fields_eq_of_bits h
    rw [decode, decode, hop, ha]
  · rintro ⟨k, hlow, hhigh⟩
    exact absurd (hlow.trans_lt hhigh) (by decide)

/-- Settles O4: the encoded word has the same two fields, and 0 in the unused bits as `w` has. -/
theorem encodeRestoresADecodedWord : Obligations.EncodeRestoresADecodedWord := by
  intro g m w hm
  have hwf := Machine.decode_wellFormed m w
  refine ⟨hwf, fun hunused hoperand => word_ext ?_ ?_ fun k hlow hhigh => ?_⟩
  · rw [opField_encode, decode, codeOf_decodeOp hm, BitVec.ofNat_toNat, BitVec.setWidth_eq]
  · exact BitVec.eq_of_toNat_eq ((operandField_encode g m _ (operand_lt_of_wellFormed hwf)).trans hoperand)
  · rw [getLsbD_encode_unused g m _ hlow hhigh, hunused k hlow hhigh]

/-- Settles O5: each word is decoded by the default map. -/
theorem sampleWordsDecode : Obligations.SampleWordsDecode := by
  unfold Obligations.SampleWordsDecode
  decide

end Sys2Proof.Proofs

namespace Sys2Proof.Machine

variable {n k : Nat} {line : List Char} {program rest : List (List Char)} {i : Instr}

/-! ### A program, line by line -/

/-- A map over a result leaves a failure as it is. -/
theorem map_eq_error_iff {ε α β : Type} {x : Except ε α} {f : α → β} {e : ε} :
    x.map f = .error e ↔ x = .error e := by
  cases x <;> simp [Except.map]

theorem assembleFrom_cons_of_error {e : AsmError} (h : assembleLine n line = .error e) :
    assembleFrom n k (line :: rest) = .error { line := k, error := e } := by
  simp only [assembleFrom, h]

theorem assembleFrom_cons_of_ok (h : assembleLine n line = .ok i) :
    assembleFrom n k (line :: rest) = (assembleFrom n (k + 1) rest).map (i :: ·) := by
  simp only [assembleFrom, h]
  cases assembleFrom n (k + 1) rest <;> rfl

/-- The words are the instructions, each encoded (30_encoding.md R110). -/
theorem assemble_eq_map (g : Geometry) (p : Params) (program : List (List Char)) :
    assemble g p program = (assembleFrom p.capacity 0 program).map (List.map (encode g p.opcodeMap)) := by
  unfold assemble
  cases assembleFrom p.capacity 0 program <;> rfl

/-- The lines of a program that assembles are one by one the lines of its instructions (R110, R114). -/
theorem forall₂_of_assembleFrom_ok {is : List Instr} (h : assembleFrom n k program = .ok is) :
    List.Forall₂ (fun line i => assembleLine n line = .ok i) program is := by
  induction program generalizing k is with
  | nil => cases h; exact .nil
  | cons line rest ih =>
    cases hline : assembleLine n line with
    | error e => cases (assembleFrom_cons_of_error hline).symm.trans h
    | ok i =>
      rw [assembleFrom_cons_of_ok hline] at h
      cases hrest : assembleFrom n (k + 1) rest with
      | error f => rw [hrest] at h; cases h
      | ok js => rw [hrest] at h; cases h; exact .cons hline (ih hrest)

/-! ### The first line that fails -/

/-- Line `j` of the program fails alone with `e`, and every line before it assembles (R117). -/
def FirstFailure (n : Nat) (program : List (List Char)) (j : Nat) (e : AsmError) : Prop :=
  ∃ line, program[j]? = some line ∧ assembleLine n line = .error e ∧
    ∀ j' l, j' < j → program[j']? = some l → ∃ i, assembleLine n l = .ok i

namespace FirstFailure

variable {j : Nat} {e : AsmError}

theorem not_nil : ¬ FirstFailure n [] j e := by
  rintro ⟨line, h, -⟩
  cases h

theorem cons_zero : FirstFailure n (line :: rest) 0 e ↔ assembleLine n line = .error e := by
  simp [FirstFailure]

theorem cons_succ :
    FirstFailure n (line :: rest) (j + 1) e ↔ (∃ i, assembleLine n line = .ok i) ∧ FirstFailure n rest j e := by
  constructor
  · rintro ⟨l, hl, he, hbefore⟩
    exact ⟨hbefore 0 line (Nat.succ_pos j) rfl,
      l, hl, he, fun j' l' hj' hl' => hbefore (j' + 1) l' (Nat.succ_lt_succ hj') hl'⟩
  · rintro ⟨hline, l, hl, he, hbefore⟩
    refine ⟨l, hl, he, fun j' l' hj' hl' => ?_⟩
    cases j' with
    | zero => cases hl'; exact hline
    | succ j' => exact hbefore j' l' (Nat.lt_of_succ_lt_succ hj') hl'

end FirstFailure

/-- A program fails with the first line that does, whose number counts on from the first line's (R117, log entry 15). -/
theorem assembleFrom_error_iff {f : AsmFailure} :
    assembleFrom n k program = .error f ↔ ∃ j, f.line = k + j ∧ FirstFailure n program j f.error := by
  induction program generalizing k with
  | nil => exact iff_of_false nofun fun ⟨_, _, h⟩ => FirstFailure.not_nil h
  | cons line rest ih =>
    cases hline : assembleLine n line with
    | error e =>
      rw [assembleFrom_cons_of_error hline]
      constructor
      · rintro ⟨⟩
        exact ⟨0, rfl, FirstFailure.cons_zero.2 hline⟩
      · rintro ⟨j, hj, h⟩
        cases j with
        | zero => cases f; cases hj; cases hline.symm.trans (FirstFailure.cons_zero.1 h); rfl
        | succ j =>
          obtain ⟨⟨i, hi⟩, -⟩ := FirstFailure.cons_succ.1 h
          cases hline.symm.trans hi
    | ok i =>
      rw [assembleFrom_cons_of_ok hline, map_eq_error_iff, ih]
      constructor
      · rintro ⟨j, hj, h⟩
        exact ⟨j + 1, by omega, FirstFailure.cons_succ.2 ⟨⟨i, hline⟩, h⟩⟩
      · rintro ⟨j, hj, h⟩
        cases j with
        | zero => cases hline.symm.trans (FirstFailure.cons_zero.1 h)
        | succ j => exact ⟨j, by omega, (FirstFailure.cons_succ.1 h).2⟩

/-! ### One line -/

/-- A mnemonic with an operand below `n` is a valid instruction, `HLT` with none (R101). -/
theorem Mnemonic.instr_valid {m : Mnemonic} {a : Nat} (ha : a < n) : (m.instr a).valid n = true := by
  cases m <;> simp [Mnemonic.instr, Instr.valid, ha]

/-- What a line assembles to is valid for the memory (R114): only `HLT` alone and an operand that passed the bound check
give an instruction. -/
theorem valid_of_assembleLine (h : assembleLine n line = .ok i) : i.valid n = true := by
  unfold assembleLine at h
  split at h
  · cases h
  split at h
  · cases h
  split at h
  · split at h <;> cases h
    rfl
  · split at h
    · cases h
    split at h
    · cases h
    split at h <;> cases h
    exact Mnemonic.instr_valid (by omega)
  · cases h

/-! ### Tokens -/

/-- Characters that are not whitespace join the token being read (R111). -/
theorem tokensFrom_append {word : List Char} (h : ∀ c ∈ word, c.isWhitespace = false) (cur rest : List Char) :
    tokensFrom cur (word ++ rest) = tokensFrom (word.reverse ++ cur) rest := by
  induction word generalizing cur with
  | nil => rfl
  | cons c word ih =>
    obtain ⟨hc, hword⟩ := List.forall_mem_cons.1 h
    simp [tokensFrom, hc, ih hword]

/-- A line of one word is one token. -/
theorem tokens_word {word : List Char} (h : ∀ c ∈ word, c.isWhitespace = false) (hne : word ≠ []) :
    tokens word = [word] := by
  have hsplit := tokensFrom_append h [] []
  rw [List.append_nil, List.append_nil] at hsplit
  simp [tokens, hsplit, tokensFrom, hne]

/-- A word ends at a space. -/
theorem tokens_word_space {word : List Char} (h : ∀ c ∈ word, c.isWhitespace = false) (hne : word ≠ [])
    (rest : List Char) : tokens (word ++ ' ' :: rest) = word :: tokens rest := by
  have hspace : (' ').isWhitespace = true := rfl
  simp [tokens, tokensFrom_append h, tokensFrom, hspace, hne]

theorem Mnemonic.spelling_ne_nil (m : Mnemonic) : m.spelling ≠ [] := by
  cases m <;> exact List.cons_ne_nil _ _

theorem Mnemonic.spelling_not_whitespace (m : Mnemonic) : ∀ c ∈ m.spelling, c.isWhitespace = false := by
  cases m <;> simp [Mnemonic.spelling]

/-- The six spellings are different (R112). -/
theorem mnemonicOf_spelling (m : Mnemonic) : mnemonicOf m.spelling = some m := by
  cases m <;> rfl

/-! ### Decimal operands -/

theorem isWhitespace_of_isDigit {c : Char} (h : c.isDigit = true) : c.isWhitespace = false := by
  by_contra hw
  simp only [Char.isWhitespace, Bool.not_eq_false, Bool.or_eq_true, decide_eq_true_eq] at hw
  obtain ((rfl | rfl) | rfl) | rfl := hw <;> cases h

/-- A digit string is read as its value in base 10 (R116). -/
theorem digitsFrom_of_digits {cs : List Char} (h : ∀ c ∈ cs, c.isDigit = true) (acc : Nat) :
    digitsFrom acc cs = some (Nat.ofDigitChars 10 cs acc) := by
  induction cs generalizing acc with
  | nil => rfl
  | cons c cs ih =>
    obtain ⟨hc, hcs⟩ := List.forall_mem_cons.1 h
    rw [digitsFrom, if_pos hc, ih hcs, Nat.ofDigitChars_cons]

/-- Digits without a sign are read as their number: no digit is a sign (R116). -/
theorem parseDecimal_of_digits {cs : List Char} (h : ∀ c ∈ cs, c.isDigit = true) (hne : cs ≠ []) :
    parseDecimal cs = some (Nat.ofDigitChars 10 cs 0 : Int) := by
  have hdigits : parseDigits cs = some (Nat.ofDigitChars 10 cs 0) := by
    obtain ⟨c, ds, rfl⟩ := List.exists_cons_of_ne_nil hne
    exact digitsFrom_of_digits h 0
  unfold parseDecimal
  split
  · cases h '+' List.mem_cons_self
  · cases h '-' List.mem_cons_self
  · rw [hdigits]
    rfl

theorem isDigit_of_mem_decimal {a : Nat} {c : Char} (h : c ∈ Nat.toDigits 10 a) : c.isDigit = true :=
  Nat.isDigit_of_mem_toDigits (by decide) (by decide) h

/-- The decimal form of a number is read back as that number. -/
theorem parseDecimal_toDigits (a : Nat) : parseDecimal (Nat.toDigits 10 a) = some (a : Int) := by
  rw [parseDecimal_of_digits (fun _ => isDigit_of_mem_decimal) Nat.toDigits_ne_nil, Nat.ofDigitChars_ten_toDigits]

/-! ### The listing -/

/-- The line of a mnemonic and a decimal operand below `n` assembles to their instruction (R111 to R116). -/
theorem assembleLine_operand {m : Mnemonic} {a : Nat} (hm : m ≠ .hlt) (ha : a < n) :
    assembleLine n (m.spelling ++ ' ' :: Nat.toDigits 10 a) = .ok (m.instr a) := by
  have htokens : tokens (m.spelling ++ ' ' :: Nat.toDigits 10 a) = [m.spelling, Nat.toDigits 10 a] := by
    rw [tokens_word_space m.spelling_not_whitespace m.spelling_ne_nil,
      tokens_word (fun _ h => isWhitespace_of_isDigit (isDigit_of_mem_decimal h)) Nat.toDigits_ne_nil]
  simp [assembleLine, htokens, mnemonicOf_spelling, parseDecimal_toDigits, hm, ha]

/-- `HLT` alone assembles (R113). -/
theorem assembleLine_hlt (n : Nat) : assembleLine n Mnemonic.hlt.spelling = .ok .hlt := by
  simp [assembleLine, tokens_word Mnemonic.hlt.spelling_not_whitespace Mnemonic.hlt.spelling_ne_nil,
    mnemonicOf_spelling]

/-- A valid instruction is `HLT`, or a mnemonic with an operand below `n` that the listing spells (R101, R121). -/
theorem symbolic_of_valid (h : i.valid n = true) :
    i = .hlt ∨ ∃ m a, m ≠ Mnemonic.hlt ∧ a < n ∧ i = m.instr a ∧ symbolic i = some (m, some a) := by
  cases i with
  | lda a => exact .inr ⟨.lda, a, nofun, of_decide_eq_true h, rfl, rfl⟩
  | add a => exact .inr ⟨.add, a, nofun, of_decide_eq_true h, rfl, rfl⟩
  | sub a => exact .inr ⟨.sub, a, nofun, of_decide_eq_true h, rfl, rfl⟩
  | jnz a => exact .inr ⟨.jnz, a, nofun, of_decide_eq_true h, rfl, rfl⟩
  | sta a => exact .inr ⟨.sta, a, nofun, of_decide_eq_true h, rfl, rfl⟩
  | hlt => exact .inl rfl
  | invalidOp6 => cases h
  | invalidOp7 => cases h

end Sys2Proof.Machine

namespace Sys2Proof.Proofs

open Sys2Proof.Machine

/-- Settles O58: line by line, the instruction is valid, so its word decodes back. -/
theorem assembledWordsDecodeToTheirLines : Obligations.AssembledWordsDecodeToTheirLines := by
  rintro g p program ws ⟨-, hN, hm⟩ h
  rw [assemble_eq_map] at h
  cases his : assembleFrom p.capacity 0 program with
  | error f => rw [his] at h; cases h
  | ok is =>
    rw [his] at h
    cases h
    have hlines := forall₂_of_assembleFrom_ok his
    refine ⟨(List.length_map ..).trans hlines.length_eq.symm, fun k line hk => ?_⟩
    obtain ⟨hlt, rfl⟩ := List.getElem?_eq_some_iff.1 hk
    have hlt' : k < is.length := hlines.length_eq ▸ hlt
    have hi : assembleLine p.capacity program[k] = .ok is[k] := hlines.get hlt hlt'
    have hvalid := valid_of_assembleLine hi
    exact ⟨is[k], hi, hvalid, by simp [hlt'], Laws.decode_encode hm (Laws.wellFormed_of_valid hN hvalid)⟩

/-- Settles O59: a program's first line has number 0. -/
theorem assemblerFailsAtTheFirstBadLine : Obligations.AssemblerFailsAtTheFirstBadLine := by
  intro g p program f
  rw [assemble_eq_map, map_eq_error_iff, assembleFrom_error_iff]
  simp only [Nat.zero_add, exists_eq_left']
  rfl

/-- Settles O60: the listing of a valid instruction is `HLT`, or its mnemonic, a space and its operand in decimal. -/
theorem listingsReassemble : Obligations.ListingsReassemble := by
  intro n w h
  rcases symbolic_of_valid h with hi | ⟨m, a, hm, ha, hi, hsym⟩
  · rw [listing, hi]
    exact assembleLine_hlt n
  · rw [listing, hsym, hi]
    exact assembleLine_operand hm ha

end Sys2Proof.Proofs

/-! The statements of the family 40_cycle.md: a step runs one instruction or says why there is none, it is the clock edges
up to the next boundary, and what the fetch's fault, the endless jump and a stopped core do. -/

namespace Sys2Proof.Machine

variable {g : Geometry} {ex : Instr → State g → Result g} {s t : State g} {i : Instr}

/-! ### Ready, ended or neither -/

theorem State.ready_iff :
    s.ready = true ↔ s.pins.rst = false ∧ s.wasReset = true ∧ s.live = true ∧ s.waiting = false := by
  simp [State.ready, and_assoc]

theorem State.ended_iff : s.ended = true ↔ s.pins.rst = false ∧ s.wasReset = true ∧ s.live = false := by
  simp [State.ended, and_assoc]

theorem State.not_ready_of_ended (h : s.ended = true) : s.ready = false := by
  obtain ⟨-, -, hl⟩ := State.ended_iff.1 h
  simp [State.ready, hl]

theorem State.phase_of_waiting (h : s.waiting = true) : s.phase = .fetch := by
  simp only [State.waiting, Bool.and_eq_true, decide_eq_true_eq] at h
  exact h.1.1

/-- Inside an instruction a core never waits (70_reset_and_hazards.md R250), so what keeps it running keeps it ready. -/
theorem State.ready_inside (h : s.ready = true) (hrst : t.pins.rst = s.pins.rst) (hwas : t.wasReset = s.wasReset)
    (hst : t.status = s.status) (hp : t.phase ≠ .fetch) : t.ready = true := by
  obtain ⟨hr, hw, hl, -⟩ := State.ready_iff.1 h
  have hlt : t.live = true := by simpa [State.live, hst] using hl
  exact State.ready_iff.2 ⟨hrst.trans hr, hwas.trans hw, hlt, by simp [State.waiting, hp]⟩

/-! ### What a step answers -/

theorem stepWith_before_reset (hr : s.pins.rst = false) (hw : s.wasReset = false) :
    stepWith ex s = .fault .beforeFirstReset := by
  simp [stepWith, hr, hw]

theorem stepWith_of_ready (h : s.ready = true) : stepWith ex s = completeInstr ex s.dropPulse := by
  obtain ⟨hr, hw, hl, hwait⟩ := State.ready_iff.1 h
  simp [stepWith, hr, hw, hl, hwait]

/-- A fetch outside the memory is all of its instruction: the fault (40_cycle.md R132). -/
theorem stepWith_of_fetch_fault (h : s.ready = true) (hp : s.phase = .fetch) (hN : s.cfg.capacity ≤ s.pc.toNat) :
    stepWith ex s = .next (s.dropPulse.raiseFault .oobFetch s.pc.toNat) := by
  rw [stepWith_of_ready h]
  simp [completeInstr, hp, Nat.not_lt.2 hN, State.fetchPhase_of_le (s := s.dropPulse) hN]

/-- The execute phase of every instruction has a next state. -/
theorem exists_execAt_next (i : Instr) (s : State g) : ∃ t, execAt i s = .next t := by
  cases i <;> exact ⟨_, rfl⟩

theorem exists_executePhase_next (s : State g) : ∃ t, executePhase execAt s = .next t := by
  obtain ⟨u, hu⟩ := exists_execAt_next s.decoded s
  exact ⟨_, executePhase_of_next hu⟩

theorem exists_completeInstr_next (s : State g) : ∃ t, completeInstr execAt s = .next t := by
  rcases completeInstr_cases execAt s with ⟨-, -, e⟩ | ⟨-, -, e⟩ | ⟨-, e⟩ | ⟨-, e⟩ <;> rw [e]
  · exact exists_executePhase_next _
  · exact ⟨_, rfl⟩
  · exact exists_executePhase_next _
  · exact exists_executePhase_next _

/-- A core in reset, or reset before and neither halted nor faulted, has a step. -/
theorem exists_stepAt_next (h : s.pins.rst = true ∨ s.wasReset = true ∧ s.live = true) :
    ∃ t, stepAt s = .next t := by
  unfold stepAt
  rcases stepWith_cases execAt s with ⟨-, e⟩ | ⟨hr, hw, -⟩ | ⟨hr, -, hl, -⟩ | ⟨-, -, -, -, e⟩ | ⟨-, e⟩
  · exact ⟨_, e⟩
  · simp [hr, hw] at h
  · simp [hr, hl] at h
  · exact ⟨_, e⟩
  · exact e ▸ exists_completeInstr_next _

/-- No execute phase raises the fault of the fetch (40_cycle.md R132). -/
theorem ExecEffect.oobFetch_kept (h : ExecEffect s i t) (hc : t.status.cause = .oobFetch) :
    s.status.cause = .oobFetch := by
  cases h with
  | lda _ | add _ | sub _ | sta _ | jump _ | pass _ | hlt | report _ _ => exact hc
  | trap _ _ | outOfRange _ _ => cases hc

/-! ### Clock edges up to the boundary -/

theorem executePhase_phase (h : executePhase ex s = .next t) : t.phase = .fetch := by
  obtain ⟨u, -, rfl⟩ := executePhase_next h
  rfl

/-- An edge that ends at a boundary is all the edges to it. -/
theorem edgesToBoundary_of_boundary {k : Nat}
    (h : ∀ t, edgeWith ex s = .next t → t.phase = .fetch) :
    edgesToBoundary ex (k + 1) s = edgeWith ex s := by
  unfold edgesToBoundary
  cases he : edgeWith ex s with
  | next t => simp [h t he]
  | fault r => rfl
  | refused r => rfl

theorem edgesToBoundary_of_inside {k : Nat} (he : edgeWith ex s = .next t) (hp : t.phase ≠ .fetch) :
    edgesToBoundary ex (k + 1) s = edgesToBoundary ex k t := by
  simp [edgesToBoundary, he, hp]

theorem edgesToBoundary_execute {k : Nat} (h : s.ready = true) (hp : s.phase = .execute) :
    edgesToBoundary ex (k + 1) s = executePhase ex s.dropPulse := by
  have he := edgeWith_execute (ex := ex) h hp
  exact (edgesToBoundary_of_boundary fun _ ht => executePhase_phase (he.symm.trans ht)).trans he

theorem edgesToBoundary_decode {k : Nat} (h : s.ready = true) (hp : s.phase = .decode) :
    edgesToBoundary ex (k + 2) s = executePhase ex s.dropPulse.decodePhase := by
  rw [edgesToBoundary_of_inside (edgeWith_decode h hp) nofun]
  exact edgesToBoundary_execute (State.ready_inside h rfl rfl rfl nofun) rfl

theorem edgesToBoundary_fetch_of_lt {k : Nat} (h : s.ready = true) (hp : s.phase = .fetch)
    (hN : s.pc.toNat < s.cfg.capacity) :
    edgesToBoundary ex (k + 3) s = executePhase ex s.dropPulse.fetchPhase.decodePhase := by
  have hf := State.fetchPhase_of_lt (s := s.dropPulse) hN
  rw [edgesToBoundary_of_inside (edgeWith_fetch h hp) (by simp [hf]), hf]
  exact edgesToBoundary_decode (State.ready_inside h rfl rfl rfl nofun) rfl

theorem edgesToBoundary_fetch_of_le {k : Nat} (h : s.ready = true) (hp : s.phase = .fetch)
    (hN : s.cfg.capacity ≤ s.pc.toNat) :
    edgesToBoundary ex (k + 1) s = .next (s.dropPulse.raiseFault .oobFetch s.pc.toNat) := by
  have he := edgeWith_fetch (ex := ex) h hp
  rw [State.fetchPhase_of_le (s := s.dropPulse) hN] at he
  refine (edgesToBoundary_of_boundary fun t ht => ?_).trans he
  cases he.symm.trans ht
  exact hp

/-- The three phases of a ready core, an edge each, are the rest of its instruction (40_cycle.md R130). -/
theorem edgesToBoundary_of_ready (h : s.ready = true) : edgesToBoundary ex 3 s = completeInstr ex s.dropPulse := by
  rcases completeInstr_cases ex s.dropPulse with ⟨hp, hN, e⟩ | ⟨hp, hN, e⟩ | ⟨hp, e⟩ | ⟨hp, e⟩ <;> rw [e]
  · exact edgesToBoundary_fetch_of_lt h hp hN
  · exact edgesToBoundary_fetch_of_le h hp hN
  · exact edgesToBoundary_decode h hp
  · exact edgesToBoundary_execute h hp

/-- Where no instruction runs and the run is not over, an edge does what a step does. -/
theorem edgeWith_eq_stepWith (hr : s.ready = false) (he : s.ended = false) : edgeWith ex s = stepWith ex s := by
  rcases stepWith_cases ex s with ⟨hrst, e⟩ | ⟨hrst, hw, e⟩ | ⟨hrst, hw, hl, -⟩ | ⟨hrst, hw, hl, hwait, e⟩ | ⟨hr', -⟩
  · simp [e, edgeWith, hrst]
  · simp [e, edgeWith, hrst, hw]
  · rw [State.ended_iff.2 ⟨hrst, hw, hl⟩] at he
    cases he
  · simp [e, edgeWith, hrst, hw, hl, hwait]
  · rw [hr] at hr'
    cases hr'

/-- Where no instruction runs, a step ends at an instruction boundary. -/
theorem stepWith_phase_of_not_ready (hr : s.ready = false) (h : stepWith ex s = .next t) : t.phase = .fetch := by
  rcases stepWith_cases ex s with ⟨-, e⟩ | ⟨-, -, e⟩ | ⟨-, -, -, e⟩ | ⟨-, -, -, hwait, e⟩ | ⟨hr', -⟩
  · cases e.symm.trans h
    rfl
  · cases e.symm.trans h
  · cases e.symm.trans h
  · cases e.symm.trans h
    exact State.phase_of_waiting hwait
  · rw [hr] at hr'
    cases hr'

/-- Wherever the run is not over, a step is the edges up to the next boundary (40_cycle.md R138, R140). -/
theorem edgesToBoundary_eq_stepWith (h : s.ended = false) : edgesToBoundary ex 3 s = stepWith ex s := by
  cases hr : s.ready with
  | true => rw [edgesToBoundary_of_ready hr, stepWith_of_ready hr]
  | false =>
    have he := edgeWith_eq_stepWith (ex := ex) hr h
    refine (edgesToBoundary_of_boundary fun t ht => ?_).trans he
    exact stepWith_phase_of_not_ready hr (he.symm.trans ht)

/-! ### A jump to itself -/

theorem jumpTarget_of_toNat (p : PcWord g) : jumpTarget g p.toNat = p := by
  rw [jumpTarget, BitVec.ofNat_toNat, BitVec.setWidth_eq]

theorem execAt_jnz_of_ne_zero {a : Nat} (hz : s.acc ≠ 0) :
    execAt (.jnz a) s = .next (s.setPc (jumpTarget g a)) :=
  congrArg Host.Outcome.next (if_pos ((isNonZero_iff s.acc).2 hz))

/-- A taken jump to its own address undoes the fetch's increment of `PC` (43_control.md R192). -/
theorem stepAt_of_fetches_jnz_self (hf : s.fetches = true) (hz : s.acc ≠ 0)
    (hd : decode s.cfg.opcodeMap s.fetchedWord = .jnz s.pc.toNat) :
    stepAt s = .next { s.afterFetch with pc := s.pc } := by
  obtain ⟨-, hp, -⟩ := State.fetches_iff.1 hf
  have hx : execAt (decode s.cfg.opcodeMap s.fetchedWord) { s.afterFetch with phase := .execute } =
      .next { s.afterFetch with pc := jumpTarget g s.pc.toNat, phase := .execute } :=
    hd ▸ execAt_jnz_of_ne_zero hz
  rw [jumpTarget_of_toNat] at hx
  rw [stepAt, stepWith_of_fetches hf, executePhase_of_next hx]
  simp [State.afterFetch, hp]

/-- With `run = 1` a core that fetches goes on to fetch from the same place. -/
theorem State.fetches_afterFetch_pc (hf : s.fetches = true) (hrun : s.pins.run = true) :
    ({ s.afterFetch with pc := s.pc } : State g).fetches = true := by
  obtain ⟨hr, hp, hN⟩ := State.fetches_iff.1 hf
  obtain ⟨hrst, hw, hl, -⟩ := State.ready_iff.1 hr
  have hwait : ({ s.afterFetch with pc := s.pc } : State g).waiting = false := by
    simp [State.waiting, State.afterFetch, hrun]
  exact State.fetches_iff.2 ⟨State.ready_iff.2 ⟨hrst, hw, hl, hwait⟩, hp, hN⟩

/-- A state that steps to itself is where every run from it ends. -/
theorem run_of_step_self {s : State} (h : step s = .next s) (k : Nat) :
    Host.Core.run Sys2Proof.core k s = .next s := by
  induction k with
  | zero => rfl
  | succ k ih => exact (run_succ k h).trans ih

/-! ### A stopped core -/

/-- The edges of a stopped core end a pulse and change nothing else (43_control.md R196, 60_exceptions.md R213). -/
theorem edgesWith_ended (h : s.ended = true) (k : Nat) :
    edgesWith ex k s = .next s ∨ edgesWith ex k s = .next s.dropPulse := by
  induction k generalizing s with
  | zero => exact .inl rfl
  | succ k ih =>
    have hk : edgesWith ex (k + 1) s = edgesWith ex k s.dropPulse := by
      simp only [edgesWith, edgeWith_ended h]
    have hd : s.dropPulse.dropPulse = s.dropPulse := rfl
    have hrest := ih (s := s.dropPulse) h
    rw [hd, or_self] at hrest
    exact .inr (hk.trans hrest)

/-- The host reads the cells of a core that runs no instruction (70_reset_and_hazards.md R252). -/
theorem State.hostRead_of_lt {a : Nat} (hr : s.ready = false) (ha : a < s.cfg.capacity) :
    s.hostRead a = .ok (Memory.read s.mem a) := by
  simp [State.hostRead, State.idle_eq_not_ready, hr, ha]

end Sys2Proof.Machine

namespace Sys2Proof.Proofs

open Sys2Proof.Machine

/-- Settles O6: the execute phase of the fetched word has a next state, and the step sets its `PHASE`. -/
theorem stepRunsTheDecodedInstruction : Obligations.StepRunsTheDecodedInstruction := by
  intro s hf
  rw [← execAt_default]
  obtain ⟨t, ht⟩ := exists_execAt_next (decode s.cfg.opcodeMap s.fetchedWord) { s.afterFetch with phase := .execute }
  refine ⟨t, ht, ?_⟩
  rw [← stepAt_eq_step, stepAt, stepWith_of_fetches hf]
  exact executePhase_of_next ht

/-- Settles O7: the step is the fetch's fault alone, the port's address is checked first, and the execute phases raise
other causes. -/
theorem fetchOutOfBoundsFaults : Obligations.FetchOutOfBoundsFaults := by
  refine ⟨fun s hr hp hN => ⟨⟨_, stepWith_of_fetch_fault hr hp hN, ?_⟩, ?_⟩, fun i s t h hc => ?_⟩
  · have hpc : BitVec.ofNat Geometry.default.pcw s.pc.toNat = s.pc := jumpTarget_of_toNat s.pc
    simp [State.raiseFault, State.dropPulse, hpc]
  · rw [State.portDrive_fetch hr hp, State.driveRead_of_le hN]
  · rw [← execAt_default] at h
    exact (execAt_effect h).oobFetch_kept hc

/-- Settles O8: the three stops by the step's order of checks, and a next state on every other path. -/
theorem stepStopsWhereTheSpecHasNoStep : Obligations.StepStopsWhereTheSpecHasNoStep := by
  intro s
  refine ⟨stepWith_before_reset, fun hr hw hh => ?_, fun hr hw hh hf => ?_, fun h => ?_⟩
  · have he : s.ended = true := State.ended_iff.2 ⟨hr, hw, by simp [State.live, hh]⟩
    exact (stepWith_ended he).trans (by simp [State.stopReason, hh])
  · have he : s.ended = true := State.ended_iff.2 ⟨hr, hw, by simp [State.live, hf]⟩
    exact (stepWith_ended he).trans (by simp [State.stopReason, hh])
  · rw [← stepAt_eq_step]
    rw [← State.live_iff] at h
    exact exists_stepAt_next h

/-- Settles O9: edges and step agree over any execute phase, so over both dispatches. -/
theorem stepIsThreeClockEdges : Obligations.StepIsThreeClockEdges :=
  ⟨fun _ h => edgesToBoundary_eq_stepWith h, fun _ _ =>
    ⟨fun h => edgesToBoundary_eq_stepWith h, fun h => ⟨stepWith_ended h, edgeWith_ended h⟩⟩⟩

/-- Settles O36: after the first step the state steps to itself. -/
theorem jnzToItselfLoopsForEver : Obligations.JnzToItselfLoopsForEver := by
  intro s hf hrun hfault hz hd k
  have hfirst : step s = .next { s.afterFetch with pc := s.pc } :=
    (stepAt_eq_step s).symm.trans (stepAt_of_fetches_jnz_self hf hz hd)
  have hloop : step { s.afterFetch with pc := s.pc } = .next { s.afterFetch with pc := s.pc } :=
    (stepAt_eq_step _).symm.trans (stepAt_of_fetches_jnz_self (State.fetches_afterFetch_pc hf hrun) hz hd)
  exact ⟨(run_succ k hfirst).trans (run_of_step_self hloop k), hfault⟩

/-- Settles O40: a run stops at its first step, and the edges leave the state, or the state with its pulse ended. -/
theorem stoppedCoreHoldsItsState : Obligations.StoppedCoreHoldsItsState := by
  intro s k h
  have hrun : Host.Core.run core (k + 1) s = .fault s.stopReason := by
    have hstep : core.step s = .fault s.stopReason := stepWith_ended h
    simp only [Host.Core.run, hstep]
  have hr := State.not_ready_of_ended h
  refine ⟨hrun, ?_⟩
  rcases edgesWith_ended (ex := exec) h k with e | e
  · exact ⟨s, e, rfl, h, State.portDrive_of_not_ready hr, rfl, fun a ha => State.hostRead_of_lt hr ha⟩
  · have hd : s.dropPulse.ended = true := h
    have hrd := State.not_ready_of_ended hd
    exact ⟨_, e, rfl, hd, State.portDrive_of_not_ready hrd, rfl, fun a ha => State.hostRead_of_lt hrd ha⟩

end Sys2Proof.Proofs

/-! The statements of the family 41_load_store.md: what a load and a store answer in range and out of range, fetch
included, what they leave unchanged, and that a stored word stays until the next store to its cell. -/

namespace Sys2Proof.Machine

variable {g : Geometry} {s t : State g} {i : Instr} {a : Nat}

/-! ### The execute phase of an access to memory -/

@[simp] theorem State.withOperand_of_le (h : s.cfg.capacity ≤ a) (k : Word g → State g) :
    s.withOperand a k = s.raiseFault .oobData a := by
  simp [State.withOperand, h]

@[simp] theorem State.storeOperand_of_le (h : s.cfg.capacity ≤ a) (v : Word g) :
    s.storeOperand a v = s.raiseFault .oobData a := by
  simp [State.storeOperand, h]

/-- Every access to memory checks its operand (41_load_store.md R150, R153, 42_arithmetic.md R170, R172). -/
theorem execAt_of_outOfRange (hi : i = .lda a ∨ i = .add a ∨ i = .sub a ∨ i = .sta a) (ha : s.cfg.capacity ≤ a) :
    execAt i s = .next (s.raiseFault .oobData a) := by
  rcases hi with rfl | rfl | rfl | rfl
  · simp [execAt, execLda, ha]
  · simp [execAt, execAdd, ha]
  · simp [execAt, execSub, ha]
  · simp [execAt, execSta, ha]

/-- `LDA`, `ADD` and `SUB` write `ACC` alone, or raise `OOB_DATA`. -/
theorem execAt_read_cases (hi : i = .lda a ∨ i = .add a ∨ i = .sub a) (h : execAt i s = .next t) :
    (a < s.cfg.capacity ∧ ∃ v, t = s.setAcc v) ∨ (s.cfg.capacity ≤ a ∧ t = s.raiseFault .oobData a) := by
  rcases Nat.lt_or_ge a s.cfg.capacity with ha | ha
  · refine .inl ⟨ha, ?_⟩
    rcases hi with rfl | rfl | rfl
    · cases (execAt_lda_of_lt ha).symm.trans h; exact ⟨_, rfl⟩
    · cases (execAt_add_of_lt ha).symm.trans h; exact ⟨_, rfl⟩
    · cases (execAt_sub_of_lt ha).symm.trans h; exact ⟨_, rfl⟩
  · cases (execAt_of_outOfRange (hi.imp_right (.imp_right .inl)) ha).symm.trans h
    exact .inr ⟨ha, rfl⟩

/-- `STA` writes its cell alone, or raises `OOB_DATA`. -/
theorem execAt_sta_cases (h : execAt (.sta a) s = .next t) :
    (a < s.cfg.capacity ∧ t = { s with mem := Memory.write s.mem a s.acc }) ∨
      (s.cfg.capacity ≤ a ∧ t = s.raiseFault .oobData a) := by
  rcases Nat.lt_or_ge a s.cfg.capacity with ha | ha
  · cases (execAt_sta_of_lt ha).symm.trans h
    exact .inl ⟨ha, rfl⟩
  · cases (execAt_of_outOfRange (by simp) ha).symm.trans h
    exact .inr ⟨ha, rfl⟩

/-! ### The fetch included -/

/-- Where the core fetches `i`, the step goes to what `i`'s execute phase makes of the state after the fetch, back at the
phase it started in. -/
theorem stepsTo_of_execAt {s v : State} (hf : s.fetches = true) (hd : decode s.cfg.opcodeMap s.fetchedWord = i)
    (hx : execAt i { s.afterFetch with phase := .execute } = .next { v with phase := .execute })
    (hv : v.phase = s.phase) : StepsTo s v := by
  subst hd
  obtain ⟨-, hp, -⟩ := State.fetches_iff.1 hf
  have hstep : step s = .next { v with phase := .fetch } := by
    rw [← Proofs.stepAt_eq_step, stepAt, stepWith_of_fetches hf]
    exact executePhase_of_next (u := { v with phase := .execute }) hx
  rw [← hp, ← hv] at hstep
  exact ⟨v, hstep, rfl⟩

/-- A fetched access out of range faults and leaves the rest as the fetch left it. -/
theorem stepsTo_of_outOfRange {s : State} (hf : s.fetches = true) (hd : decode s.cfg.opcodeMap s.fetchedWord = i)
    (hi : i = .lda a ∨ i = .add a ∨ i = .sub a ∨ i = .sta a) (ha : s.cfg.capacity ≤ a) :
    StepsTo s (s.afterFetch.raiseFault .oobData a) :=
  stepsTo_of_execAt hf hd (execAt_of_outOfRange hi ha) rfl

/-- A fetched `LDA` inside the memory loads its cell (41_load_store.md R150). -/
theorem stepsTo_lda {s : State} (hf : s.fetches = true) (hd : decode s.cfg.opcodeMap s.fetchedWord = .lda a)
    (ha : a < s.cfg.capacity) : StepsTo s (s.afterFetch.setAcc (Memory.read s.mem a)) :=
  stepsTo_of_execAt hf hd (execAt_lda_of_lt ha) rfl

/-- A fetched `STA` inside the memory stores `ACC` in its cell (41_load_store.md R153). -/
theorem stepsTo_sta {s : State} (hf : s.fetches = true) (hd : decode s.cfg.opcodeMap s.fetchedWord = .sta a)
    (ha : a < s.cfg.capacity) : StepsTo s { s.afterFetch with mem := Memory.write s.mem a s.acc } :=
  stepsTo_of_execAt hf hd (execAt_sta_of_lt ha) rfl

/-! ### Several execute phases -/

/-- Execute phases in a row answer a next state only where each of them does. -/
theorem execAll_cons_next {is : List Instr} {s u : State} (h : execAll (i :: is) s = .next u) :
    ∃ t, exec i s = .next t ∧ execAll is t = .next u := by
  unfold execAll at h
  cases hx : exec i s with
  | next t => rw [hx] at h; exact ⟨t, rfl, h⟩
  | fault r => rw [hx] at h; cases h
  | refused r => rw [hx] at h; cases h

/-- Without a store to cell `a`, execute phases keep its word, and they never change the parameters. -/
theorem execAll_keeps_cell {is : List Instr} {s u : State} (his : ∀ i ∈ is, i ≠ .sta a)
    (h : execAll is s = .next u) : u.cfg = s.cfg ∧ Memory.read u.mem a = Memory.read s.mem a := by
  induction is generalizing s with
  | nil => cases h; exact ⟨rfl, rfl⟩
  | cons i is ih =>
    obtain ⟨hi, his⟩ := List.forall_mem_cons.1 his
    obtain ⟨t, ht, hu⟩ := execAll_cons_next h
    have heff : ExecEffect s i t := execAt_effect ((execAt_eq_exec i s).trans ht)
    have hcell : Memory.read t.mem a = Memory.read s.mem a := by
      by_contra hne
      exact hi (heff.read_mem_ne hne).1
    obtain ⟨hcfg, hread⟩ := ih his hu
    exact ⟨hcfg.trans heff.cfg_eq, hread.trans hcell⟩

end Sys2Proof.Machine

namespace Sys2Proof.Proofs

open Sys2Proof.Machine

/-- Settles O11: the operand is read in range, and the fault is raised out of range. -/
theorem ldaEffect : Obligations.LdaEffect :=
  fun _ _ => ⟨execAt_lda_of_lt, execAt_of_outOfRange (.inl rfl)⟩

/-- Settles O12: in range the memory after is the one with the cell written. -/
theorem staEffect : Obligations.StaEffect := fun _ _ hwf =>
  ⟨fun ha => ⟨_, execAt_sta_of_lt ha, Memory.read_write_same hwf, fun _ => Memory.read_write_other⟩,
    execAt_of_outOfRange (.inr (.inr (.inr rfl)))⟩

/-- Settles O18: in range only `ACC` is written, out of range only what a fault records. -/
theorem loadAndArithmeticFrame : Obligations.LoadAndArithmeticFrame := by
  intro i a s t hi h
  rw [← execAt_default] at h
  rcases execAt_read_cases hi h with ⟨ha, v, rfl⟩ | ⟨ha, rfl⟩
  · exact ⟨⟨rfl, rfl, rfl, rfl, rfl, rfl⟩, ⟨rfl, rfl⟩, fun _ => rfl, fun _ => ⟨rfl, rfl⟩, fun hge => by omega⟩
  · exact ⟨⟨rfl, rfl, rfl, rfl, rfl, rfl⟩, ⟨rfl, rfl⟩, fun _ => rfl, fun hlt => by omega, fun _ => rfl⟩

/-- Settles O19: in range only the operand's cell is written, out of range only what a fault records. -/
theorem storeFrame : Obligations.StoreFrame := by
  intro a s t h
  rw [← execAt_default] at h
  rcases execAt_sta_cases h with ⟨ha, rfl⟩ | ⟨ha, rfl⟩
  · exact ⟨⟨rfl, rfl, rfl, rfl, rfl, rfl, rfl⟩, ⟨rfl, rfl⟩, fun _ => Memory.read_write_other, fun _ => ⟨rfl, rfl⟩,
      fun hge => by omega⟩
  · exact ⟨⟨rfl, rfl, rfl, rfl, rfl, rfl, rfl⟩, ⟨rfl, rfl⟩, fun _ _ => rfl, fun hlt => by omega, fun _ _ => rfl⟩

/-- Settles O21: the code decodes to `LDA`, whose execute phase follows the fetch; what a line assembles to is valid. -/
theorem ldaCycle : Obligations.LdaCycle := by
  rintro s a hf hm hop rfl
  have hd : decode s.cfg.opcodeMap s.fetchedWord = .lda (operandField s.fetchedWord).toNat :=
    Laws.decodeOp_of_code (i := .lda 0) hm hop _
  refine ⟨stepsTo_lda hf hd, fun ha => ⟨stepsTo_of_outOfRange hf hd (by simp) ha, fun line h => ?_⟩⟩
  exact ha.not_gt (of_decide_eq_true (valid_of_assembleLine h))

/-- Settles O22: the code decodes to `STA`, whose execute phase follows the fetch. -/
theorem staCycle : Obligations.StaCycle := by
  rintro s a hf hm hwf hop rfl
  have hd : decode s.cfg.opcodeMap s.fetchedWord = .sta (operandField s.fetchedWord).toNat :=
    Laws.decodeOp_of_code (i := .sta 0) hm hop _
  exact ⟨fun ha => ⟨_, stepsTo_sta hf hd ha, Memory.read_write_same hwf, fun _ => Memory.read_write_other⟩,
    stepsTo_of_outOfRange hf hd (by simp)⟩

/-- Settles O30: the store puts `ACC` in the cell, and the instructions in between keep it there for the load. -/
theorem staThenLda : Obligations.StaThenLda := by
  intro s t u a between hwf ha hother ht hu
  cases (execAt_sta_of_lt ha).symm.trans ht
  obtain ⟨hcfg, hread⟩ := execAll_keeps_cell hother hu
  have hcell : Memory.read u.mem a = s.acc := hread.trans (Memory.read_write_same hwf)
  have hau : a < u.cfg.capacity := hcfg ▸ ha
  rw [← execAt_eq_exec, execAt_lda_of_lt hau, hcell]
  rfl

/-- Settles O31: the cell at `PC` is inside the memory, and the step writes it after the fetch has read it. -/
theorem storeToOwnCell : Obligations.StoreToOwnCell := by
  intro s hf hwf hd
  obtain ⟨-, -, hN⟩ := State.fetches_iff.1 hf
  exact ⟨_, stepsTo_sta hf hd hN, rfl, fun _ => Memory.read_write_other, Memory.read_write_same hwf⟩

end Sys2Proof.Proofs

/-! The statements of the family 42_arithmetic.md: what `ADD` and `SUB` answer in range and out of range, fetch included,
the laws of several of them in a row, and a wrapped difference read in two's complement. -/

namespace Sys2Proof.Machine

variable {g : Geometry} {a : Nat}

/-! ### The ALU -/

/-- The sum as the word of its number (42_arithmetic.md R170). -/
theorem aluAdd_eq_ofNat (x y : Word g) : aluAdd x y = BitVec.ofNat g.W ((x.toNat + y.toNat) % 2 ^ g.W) := by
  rw [← aluAdd_toNat, BitVec.ofNat_toNat, BitVec.setWidth_eq]

/-- The difference as the word of its number (42_arithmetic.md R172). -/
theorem aluSub_eq_ofNat (x y : Word g) :
    aluSub x y = BitVec.ofNat g.W ((x.toNat + (2 ^ g.W - y.toNat)) % 2 ^ g.W) := by
  rw [← aluSub_toNat, BitVec.ofNat_toNat, BitVec.setWidth_eq]

/-- Another `n` times the word on top of the sum: only the total counts, modulo `2^W` (42_arithmetic.md R177). -/
theorem aluAdd_toNat_add_mul (x y : Word g) (n : Nat) :
    ((aluAdd x y).toNat + n * y.toNat) % 2 ^ g.W = (x.toNat + (n + 1) * y.toNat) % 2 ^ g.W := by
  rw [aluAdd_toNat, Nat.mod_add_mod, Nat.add_assoc, Nat.succ_mul, Nat.add_comm y.toNat]

/-- Subtraction takes back an addition (42_arithmetic.md R177). -/
theorem aluSub_aluAdd (x y : Word g) : aluSub (aluAdd x y) y = x :=
  BitVec.add_sub_cancel x y

/-- The difference is the mathematical one, wrapped to `W` bits (42_arithmetic.md R174). -/
theorem aluSub_eq_ofInt (x y : Word g) : aluSub x y = BitVec.ofInt g.W ((x.toNat : Int) - y.toNat) := by
  apply BitVec.eq_of_toInt_eq
  rw [aluSub, BitVec.toInt_sub, BitVec.toInt_ofInt, BitVec.toInt_eq_toNat_bmod, BitVec.toInt_eq_toNat_bmod,
    ← Int.sub_bmod]

/-! ### The fetch included -/

/-- A fetched `ADD` inside the memory adds its cell to `ACC` (42_arithmetic.md R170). -/
theorem stepsTo_add {s : State} (hf : s.fetches = true) (hd : decode s.cfg.opcodeMap s.fetchedWord = .add a)
    (ha : a < s.cfg.capacity) : StepsTo s (s.afterFetch.setAcc (aluAdd s.acc (Memory.read s.mem a))) :=
  stepsTo_of_execAt hf hd (execAt_add_of_lt ha) rfl

/-- A fetched `SUB` inside the memory subtracts its cell from `ACC` (42_arithmetic.md R172). -/
theorem stepsTo_sub {s : State} (hf : s.fetches = true) (hd : decode s.cfg.opcodeMap s.fetchedWord = .sub a)
    (ha : a < s.cfg.capacity) : StepsTo s (s.afterFetch.setAcc (aluSub s.acc (Memory.read s.mem a))) :=
  stepsTo_of_execAt hf hd (execAt_sub_of_lt ha) rfl

/-! ### Several execute phases -/

/-- An execute phase that answers a next state hands it to those after it. -/
theorem execAll_cons_of_next {i : Instr} {is : List Instr} {s t : State} (h : execAt i s = .next t) :
    execAll (i :: is) s = execAll is t := by
  rw [execAt_eq_exec] at h
  rw [execAll, h]

/-- `ADD` of a cell and then `SUB` of it give the state back (42_arithmetic.md R177). -/
theorem execAll_add_sub {s : State} (ha : a < s.cfg.capacity) : execAll [.add a, .sub a] s = .next s := by
  have hsub : execAt (.sub a) (s.setAcc (aluAdd s.acc (Memory.read s.mem a))) = .next s := by
    rw [execAt_sub_of_lt (by simpa using ha), State.setAcc_acc, State.setAcc_mem, aluSub_aluAdd]
    rfl
  rw [execAll_cons_of_next (execAt_add_of_lt ha), execAll_cons_of_next hsub, execAll]

/-- `n` times `ADD` of a cell adds the cell `n` times, modulo `2^W` (42_arithmetic.md R177): `ADD` changes neither the cell
nor the capacity, so every addition adds the same word. -/
theorem execAll_replicate_add {s : State} (ha : a < s.cfg.capacity) (n : Nat) :
    execAll (List.replicate n (.add a)) s =
      .next (s.setAcc (BitVec.ofNat _ ((s.acc.toNat + n * (Memory.read s.mem a).toNat) % 2 ^ Geometry.default.W))) := by
  induction n generalizing s with
  | zero =>
    rw [Nat.zero_mul, Nat.add_zero, Nat.mod_eq_of_lt s.acc.isLt, BitVec.ofNat_toNat, BitVec.setWidth_eq]
    rfl
  | succ n ih =>
    have hrest := ih (s := s.setAcc (aluAdd s.acc (Memory.read s.mem a))) ha
    rw [List.replicate_succ, execAll_cons_of_next (execAt_add_of_lt ha), hrest, ← aluAdd_toNat_add_mul]
    rfl

end Sys2Proof.Machine

namespace Sys2Proof.Proofs

open Sys2Proof.Machine

/-- Settles O13: the sum goes to `ACC` in range, and the fault is raised out of range. -/
theorem addEffect : Obligations.AddEffect := by
  refine fun s a => ⟨fun ha => ?_, execAt_of_outOfRange (.inr (.inl rfl))⟩
  rw [← aluAdd_eq_ofNat]
  exact execAt_add_of_lt ha

/-- Settles O14: the difference goes to `ACC` in range, and the fault is raised out of range. -/
theorem subEffect : Obligations.SubEffect := by
  refine fun s a => ⟨fun ha => ?_, execAt_of_outOfRange (.inr (.inr (.inl rfl)))⟩
  rw [← aluSub_eq_ofNat]
  exact execAt_sub_of_lt ha

/-- Settles O23: the code decodes to `ADD`, whose execute phase follows the fetch. -/
theorem addCycle : Obligations.AddCycle := by
  rintro s a hf hm hop rfl
  have hd : decode s.cfg.opcodeMap s.fetchedWord = .add (operandField s.fetchedWord).toNat :=
    Laws.decodeOp_of_code (i := .add 0) hm hop _
  exact ⟨fun ha => ⟨_, stepsTo_add hf hd ha, aluAdd_toNat _ _⟩, stepsTo_of_outOfRange hf hd (by simp)⟩

/-- Settles O24: the code decodes to `SUB`, whose execute phase follows the fetch. -/
theorem subCycle : Obligations.SubCycle := by
  rintro s a hf hm hop rfl
  have hd : decode s.cfg.opcodeMap s.fetchedWord = .sub (operandField s.fetchedWord).toNat :=
    Laws.decodeOp_of_code (i := .sub 0) hm hop _
  exact ⟨fun ha => ⟨_, stepsTo_sub hf hd ha, aluSub_toNat _ _⟩, stepsTo_of_outOfRange hf hd (by simp)⟩

/-- Settles O33: the difference takes the sum back, and `n` additions of one word add `n` times that word. -/
theorem addSubAlgebra : Obligations.AddSubAlgebra :=
  fun _ _ n ha => ⟨execAll_add_sub ha, execAll_replicate_add ha n⟩

/-- Settles O34: a wrapped integer in the range of two's complement reads as itself. -/
theorem wrappedSubReadsAsTheDifference : Obligations.WrappedSubReadsAsTheDifference := by
  intro g x y hlo hhi
  have hW : 0 < g.W := Nat.lt_of_lt_of_le (by decide) ((Nat.le_add_right opw g.ADW).trans g.fits)
  rw [aluSub_eq_ofInt]
  exact BitVec.toInt_ofInt_eq_self hW hlo hhi

end Sys2Proof.Proofs

/-! The statements of the family 43_control.md: what `JNZ`, `HLT` and the invalid opcodes answer and leave unchanged, fetch
included, a jump to a target outside the memory, and a row of invalid words under `LENIENT`. -/

namespace Sys2Proof.Machine

variable {g : Geometry} {s t v : State g} {i : Instr} {a : Nat}

/-! ### The execute phases -/

/-- A fault at the address a register holds records that register. -/
theorem State.raiseFault_toNat (s : State g) (c : Cause) (p : PcWord g) :
    s.raiseFault c p.toNat =
      { s with status := { s.status with faulted := true, cause := c }, faultAddr := p } := by
  have hp : BitVec.ofNat g.pcw p.toNat = p := jumpTarget_of_toNat p
  rw [State.raiseFault, hp]

theorem execAt_jnz_of_eq_zero (hz : s.acc = 0) : execAt (.jnz a) s = .next s :=
  congrArg Host.Outcome.next (if_neg fun h => (isNonZero_iff s.acc).1 h hz)

/-- `JNZ` writes nothing but `PC` (43_control.md R190). -/
theorem execAt_jnz_cases (h : execAt (.jnz a) s = .next t) : ∃ p, t = s.setPc p := by
  rcases eq_or_ne s.acc 0 with hz | hz
  · cases (execAt_jnz_of_eq_zero hz).symm.trans h
    exact ⟨s.pc, rfl⟩
  · cases (execAt_jnz_of_ne_zero hz).symm.trans h
    exact ⟨_, rfl⟩

/-- The two invalid opcodes have one execute phase (43_control.md R198). -/
theorem execAt_invalid (hi : i = .invalidOp6 ∨ i = .invalidOp7) : execAt i s = .next s.invalidOpcode := by
  rcases hi with rfl | rfl <;> rfl

theorem execAt_invalid_of_lenient (hi : i = .invalidOp6 ∨ i = .invalidOp7) (hp : s.cfg.policy = .lenient) :
    execAt i s = .next s.reportInvalid := by
  rw [execAt_invalid hi, State.invalidOpcode, hp]

theorem execAt_invalid_of_strict (hi : i = .invalidOp6 ∨ i = .invalidOp7) (hp : s.cfg.policy = .strict) :
    execAt i s = .next { s with
      status := { s.status with faulted := true, cause := .invalidOpcode }
      faultAddr := s.pc - 1 } := by
  rw [execAt_invalid hi, State.invalidOpcode, hp, ← State.raiseFault_toNat]

/-! ### The fetch included -/

/-- Codes 6 and 7 are invalid under every map, legal or not (30_encoding.md R95). -/
theorem decode_invalid (m : OpcodeMap) {w : Word g} (h : (opField w).toNat = 6 ∨ (opField w).toNat = 7) :
    decode m w = .invalidOp6 ∨ decode m w = .invalidOp7 := by
  rcases h with h | h
  · exact .inl (by simp [decode, decodeOp, h])
  · exact .inr (by simp [decode, decodeOp, h])

/-- Where the core fetches `i`, the step answers what `i`'s execute phase makes of the state after the fetch, back at the
phase it started in. -/
theorem stepAt_of_fetches (hf : s.fetches = true) (hd : decode s.cfg.opcodeMap s.fetchedWord = i)
    (hx : execAt i { s.afterFetch with phase := .execute } = .next { v with phase := .execute })
    (hv : v.phase = s.phase) : stepAt s = .next v := by
  subst hd
  obtain ⟨-, hp, -⟩ := State.fetches_iff.1 hf
  rw [stepAt, stepWith_of_fetches hf, executePhase_of_next (u := { v with phase := .execute }) hx, ← hp, ← hv]

/-- A taken `JNZ` puts its operand in `PC` (43_control.md R190). -/
theorem stepAt_jnz_of_ne_zero (hf : s.fetches = true) (hd : decode s.cfg.opcodeMap s.fetchedWord = .jnz a)
    (hz : s.acc ≠ 0) : stepAt s = .next (s.afterFetch.setPc (jumpTarget g a)) :=
  stepAt_of_fetches hf hd (execAt_jnz_of_ne_zero hz) rfl

/-- A `JNZ` that is not taken leaves what the fetch left (43_control.md R190). -/
theorem stepAt_jnz_of_eq_zero (hf : s.fetches = true) (hd : decode s.cfg.opcodeMap s.fetchedWord = .jnz a)
    (hz : s.acc = 0) : stepAt s = .next s.afterFetch :=
  stepAt_of_fetches hf hd (execAt_jnz_of_eq_zero hz) rfl

/-- An invalid opcode under `LENIENT` is a no-op that sets `IOP` (43_control.md R198). -/
theorem stepAt_invalid_of_lenient (hf : s.fetches = true)
    (hd : decode s.cfg.opcodeMap s.fetchedWord = .invalidOp6 ∨ decode s.cfg.opcodeMap s.fetchedWord = .invalidOp7)
    (hp : s.cfg.policy = .lenient) : stepAt s = .next s.afterFetch.reportInvalid :=
  stepAt_of_fetches hf rfl (execAt_invalid_of_lenient hd hp) rfl

/-- An invalid opcode under `STRICT` faults at its own address (43_control.md R198). -/
theorem stepAt_invalid_of_strict (hf : s.fetches = true)
    (hd : decode s.cfg.opcodeMap s.fetchedWord = .invalidOp6 ∨ decode s.cfg.opcodeMap s.fetchedWord = .invalidOp7)
    (hp : s.cfg.policy = .strict) :
    stepAt s = .next { s.afterFetch with
      status := { s.status with faulted := true, cause := .invalidOpcode }
      faultAddr := s.pc } := by
  have hx := execAt_invalid_of_strict (s := { s.afterFetch with phase := .execute }) hd hp
  exact stepAt_of_fetches hf rfl (hx.trans (by simp [State.afterFetch])) rfl

/-- A step that answers `t` goes to `t`. -/
theorem stepsTo_of_stepAt {s t : State} (h : stepAt s = .next t) : StepsTo s t :=
  ⟨t, (Proofs.stepAt_eq_step s).symm.trans h, rfl⟩

/-- The state between fetch and execute phase is that of a ready core. -/
theorem State.ready_execute_of_fetches (hf : s.fetches = true) :
    ({ s.afterFetch with phase := .execute } : State g).ready = true :=
  State.ready_inside (State.fetches_iff.1 hf).1 rfl rfl rfl nofun

/-- With `run = 1` a core that ran an instruction and is still live goes on (70_reset_and_hazards.md R250). -/
theorem State.ready_of_run (h : s.ready = true) (hrun : s.pins.run = true)
    (hpins : t.pins = { s.pins with step := false }) (hwas : t.wasReset = s.wasReset) (hlive : t.live = s.live) :
    t.ready = true := by
  obtain ⟨hr, hw, hl, -⟩ := State.ready_iff.1 h
  exact State.ready_iff.2 ⟨by simp [hpins, hr], hwas.trans hw, hlive.trans hl, by simp [State.waiting, hpins, hrun]⟩

/-! ### A row of invalid words -/

/-- What the `k + 1` invalid words from `PC` on make of `s` under `LENIENT` (43_control.md R199). -/
def State.pastInvalidWords (s : State g) (k : Nat) : State g :=
  { s with
    pc := BitVec.ofNat g.pcw (s.pc.toNat + (k + 1))
    ir := Memory.read s.mem (s.pc.toNat + k)
    status := { s.status with iop := true }
    pins := { s.pins with step := false } }

/-- Inside a legal memory the walk moves `PC` as a number: it does not wrap (10_state.md R35). -/
theorem State.pastInvalidWords_pc_toNat {k : Nat} (hp : s.cfg.Legal g)
    (hN : s.pc.toNat + (k + 1) ≤ s.cfg.capacity) : (s.pastInvalidWords k).pc.toNat = s.pc.toNat + (k + 1) :=
  (BitVec.toNat_ofNat ..).trans
    (Nat.mod_eq_of_lt ((hN.trans hp.2.1).trans_lt (Nat.pow_lt_pow_right (by decide) (Nat.lt_succ_self _))))

/-- The walk over one word is that word's instruction. -/
theorem State.pastInvalidWords_zero (s : State g) : s.pastInvalidWords 0 = s.afterFetch.reportInvalid := by
  have hpc : BitVec.ofNat g.pcw (s.pc.toNat + 1) = s.pc + 1 := by
    rw [BitVec.ofNat_add, BitVec.ofNat_toNat, BitVec.setWidth_eq]
    rfl
  simp [State.pastInvalidWords, State.afterFetch, State.reportInvalid, State.fetchedWord, hpc]

/-- The walk over one word more begins with one word. -/
theorem State.pastInvalidWords_succ {k : Nat} (hp : s.cfg.Legal g) (hN : s.pc.toNat + 1 ≤ s.cfg.capacity) :
    (s.pastInvalidWords 0).pastInvalidWords k = s.pastInvalidWords (k + 1) := by
  have hpc := State.pastInvalidWords_pc_toNat (k := 0) hp hN
  have hstart : s.pc.toNat + (0 + 1) + k = s.pc.toNat + (k + 1) := by omega
  have hend : s.pc.toNat + (0 + 1) + (k + 1) = s.pc.toNat + (k + 1 + 1) := by omega
  unfold State.pastInvalidWords at hpc ⊢
  simp only [hpc, hstart, hend]

/-- With `run = 1` the core is ready at the end of the walk. -/
theorem State.pastInvalidWords_ready (k : Nat) (h : s.ready = true) (hrun : s.pins.run = true) :
    (s.pastInvalidWords k).ready = true :=
  State.ready_of_run h hrun rfl rfl rfl

/-- The `n` cells from `PC` on hold invalid words. -/
def State.InvalidWordsAhead (s : State g) (n : Nat) : Prop :=
  ∀ a, s.pc.toNat ≤ a → a < s.pc.toNat + n →
    decode s.cfg.opcodeMap (Memory.read s.mem a) = .invalidOp6 ∨
      decode s.cfg.opcodeMap (Memory.read s.mem a) = .invalidOp7

/-- One step runs over the first word of the row. -/
theorem step_pastInvalidWord {s : State} {n : Nat} (hr : s.ready = true) (hph : s.phase = .fetch)
    (hpol : s.cfg.policy = .lenient) (hN : s.pc.toNat < s.cfg.capacity) (hinv : s.InvalidWordsAhead (n + 1)) :
    step s = .next (s.pastInvalidWords 0) := by
  have hd := hinv s.pc.toNat le_rfl (by omega)
  rw [← Proofs.stepAt_eq_step, State.pastInvalidWords_zero]
  exact stepAt_invalid_of_lenient (State.fetches_iff.2 ⟨hr, hph, hN⟩) hd hpol

/-- Past its first word the row goes on, in the same memory under the same map. -/
theorem State.InvalidWordsAhead.tail {n : Nat} (hp : s.cfg.Legal g) (hN : s.pc.toNat + 1 ≤ s.cfg.capacity)
    (hinv : s.InvalidWordsAhead (n + 1)) : (s.pastInvalidWords 0).InvalidWordsAhead n := by
  intro a hlo hhi
  rw [State.pastInvalidWords_pc_toNat hp hN] at hlo hhi
  exact hinv a (by omega) (by omega)

/-- Under `LENIENT` the core runs over a row of invalid words inside the memory, a step a word (43_control.md R199). -/
theorem run_pastInvalidWords {s : State} {k : Nat} (hr : s.ready = true) (hph : s.phase = .fetch)
    (hrun : s.pins.run = true) (hp : s.cfg.Legal Geometry.default) (hpol : s.cfg.policy = .lenient)
    (hN : s.pc.toNat + (k + 1) ≤ s.cfg.capacity) (hinv : s.InvalidWordsAhead (k + 1)) :
    Host.Core.run Sys2Proof.core (k + 1) s = .next (s.pastInvalidWords k) := by
  induction k generalizing s with
  | zero => exact run_succ 0 (step_pastInvalidWord hr hph hpol hN hinv)
  | succ k ih =>
    have hN1 : s.pc.toNat + 1 ≤ s.cfg.capacity := by omega
    have hN' : (s.pastInvalidWords 0).pc.toNat + (k + 1) ≤ s.cfg.capacity := by
      rw [State.pastInvalidWords_pc_toNat hp hN1]
      omega
    have hrest := ih (State.pastInvalidWords_ready 0 hr hrun) hph hrun hp hpol hN' (hinv.tail hp hN1)
    rw [run_succ (k + 1) (step_pastInvalidWord hr hph hpol hN1 hinv), hrest, State.pastInvalidWords_succ hp hN1]

end Sys2Proof.Machine

namespace Sys2Proof.Proofs

open Sys2Proof.Machine

/-- Settles O20: `JNZ` writes `PC` only, `HLT` and an invalid opcode write what they report in `STATUS`. -/
theorem controlFrame : Obligations.ControlFrame := by
  intro i s t h hi
  rw [← execAt_default] at h
  rcases hi with ⟨a, rfl⟩ | rfl | hi
  · obtain ⟨p, rfl⟩ := execAt_jnz_cases h
    exact ⟨⟨rfl, rfl, rfl, rfl, rfl, rfl⟩, fun _ => rfl, fun _ => ⟨rfl, rfl⟩, nofun, by simp⟩
  · cases h
    exact ⟨⟨rfl, rfl, rfl, rfl, rfl, rfl⟩, fun _ => rfl, by simp, fun _ => ⟨rfl, rfl, rfl⟩, by simp⟩
  · cases (execAt_invalid hi).symm.trans h
    have hjnz : ¬∃ a, i = .jnz a := by rcases hi with rfl | rfl <;> simp
    have hhlt : i ≠ .hlt := by rcases hi with rfl | rfl <;> simp
    rcases s.invalidOpcode_cases with ⟨hp, e⟩ | ⟨hp, e⟩ <;> rw [e]
    · exact ⟨⟨rfl, rfl, rfl, rfl, rfl, rfl⟩, fun _ => rfl, fun h => absurd h hjnz, fun h => absurd h hhlt,
        fun _ => ⟨rfl, rfl, fun _ => ⟨rfl, rfl⟩, by simp [hp]⟩⟩
    · exact ⟨⟨rfl, rfl, rfl, rfl, rfl, rfl⟩, fun _ => rfl, fun h => absurd h hjnz, fun h => absurd h hhlt,
        fun _ => ⟨rfl, rfl, by simp [hp], fun _ => rfl⟩⟩

/-- Settles O25: the code decodes to `JNZ`; some bit of `ACC` is set exactly where `ACC` is not 0. -/
theorem jnzCycle : Obligations.JnzCycle := by
  rintro s a hf hm hop rfl
  have hd : decode s.cfg.opcodeMap s.fetchedWord = .jnz (operandField s.fetchedWord).toNat :=
    Laws.decodeOp_of_code (i := .jnz 0) hm hop _
  refine ⟨fun ⟨k, hk⟩ => ?_, fun hbits => ?_⟩
  · have hz : s.acc ≠ 0 := fun hz => by simp [hz] at hk
    exact ⟨_, stepsTo_of_stepAt (stepAt_jnz_of_ne_zero hf hd hz), jumpTarget_toNat (decode_jnz_lt hd)⟩
  · have hz : s.acc = 0 := BitVec.eq_of_getLsbD_eq fun k _ => by simp [hbits k]
    exact stepsTo_of_stepAt (stepAt_jnz_of_eq_zero hf hd hz)

/-- Settles O26: the code decodes to `HLT` whatever the operand, and the fetch's increment of `PC` does not wrap. -/
theorem hltCycle : Obligations.HltCycle := by
  refine ⟨fun s hf hp hop => ⟨?_, ?_⟩, by decide⟩
  · obtain ⟨-, -, hm⟩ := hp
    have hd : decode s.cfg.opcodeMap s.fetchedWord = .hlt := Laws.decodeOp_of_code (i := .hlt) hm hop _
    exact stepsTo_of_stepAt (stepAt_of_fetches (v := s.afterFetch.halt) hf hd rfl rfl)
  · obtain ⟨-, -, hN⟩ := State.fetches_iff.1 hf
    exact State.pc_succ_toNat hp hN

/-- Settles O27: the step goes by the policy, and an invalid opcode has no data access. -/
theorem invalidOpcodeCycle : Obligations.InvalidOpcodeCycle := by
  intro s hf hop
  have hd := decode_invalid s.cfg.opcodeMap hop
  refine ⟨fun hp => stepsTo_of_stepAt (stepAt_invalid_of_lenient hf hd hp),
    fun hp => stepsTo_of_stepAt (stepAt_invalid_of_strict hf hd hp), ?_⟩
  rw [State.portDrive_execute (State.ready_execute_of_fetches hf) rfl]
  exact State.driveData_eq_idle (.inr (.inr hd))

/-- Settles O35: taken, the jump leaves a ready core at `a`, whose fetch faults; an assembled operand is valid. -/
theorem jnzOutOfRangeTarget : Obligations.JnzOutOfRangeTarget := by
  intro s a hf hrun hd ha
  obtain ⟨hr, hph, -⟩ := State.fetches_iff.1 hf
  refine ⟨fun hz => ?_, fun hz => stepsTo_of_stepAt (stepAt_jnz_of_eq_zero hf hd hz), fun line h => ?_⟩
  · have hpc : (jumpTarget Geometry.default a).toNat = a := jumpTarget_toNat (decode_jnz_lt hd)
    have hstep := (stepAt_eq_step s).symm.trans (stepAt_jnz_of_ne_zero hf hd hz)
    have hready : (s.afterFetch.setPc (jumpTarget _ a)).ready = true := State.ready_of_run hr hrun rfl rfl rfl
    exact ⟨_, hstep, hpc, rfl, (fetchOutOfBoundsFaults.1 _ hready hph (ha.trans_eq hpc.symm)).1⟩
  · exact ha.not_gt (of_decide_eq_true (valid_of_assembleLine h))

/-- Settles O37: the walk over the row, and the fetch fault of the ready core at its end. -/
theorem lenientInvalidWordsWalkOn : Obligations.LenientInvalidWordsWalkOn := by
  intro s k hr hph hrun hp hpol hN hinv
  have hfaulted : s.status.faulted = false := (State.live_iff.1 (State.live_of_ready hr)).2
  refine ⟨s.pastInvalidWords k, ⟨run_pastInvalidWords hr hph hrun hp hpol hN hinv, hfaulted⟩,
    State.pastInvalidWords_pc_toNat hp hN, rfl, rfl, rfl, fun hend => ?_⟩
  have hfault := stepWith_of_fetch_fault (ex := exec) (State.pastInvalidWords_ready k hr hrun) hph hend.ge
  rw [hend] at hfault
  exact hfault

/-- Settles O15: the target of an operand that fits the `addr` field is that operand. -/
theorem jnzEffect : Obligations.JnzEffect := fun _ _ ha =>
  ⟨fun hz => ⟨_, execAt_jnz_of_ne_zero hz, jumpTarget_toNat (of_decide_eq_true ha)⟩, execAt_jnz_of_eq_zero⟩

/-- Settles O16: the execute phase of `HLT` is `State.halt`. -/
theorem hltEffect : Obligations.HltEffect := fun _ => rfl

/-- Settles O17: the invalid opcodes by the policy. -/
theorem invalidOpcodeEffect : Obligations.InvalidOpcodeEffect := fun s i hi =>
  ⟨fun hp => (execAt_eq_exec i s).symm.trans (execAt_invalid_of_lenient hi hp),
    fun hp => (execAt_eq_exec i s).symm.trans (execAt_invalid_of_strict hi hp)⟩

end Sys2Proof.Proofs

/-! The statements of the family 60_exceptions.md: which execute phases raise which fault, and that a fault leaves the state
before the instruction but for `PC`, `IR` and its own record. -/

namespace Sys2Proof.Machine

variable {g : Geometry} {s t : State g} {i : Instr} {a : Nat}

/-! ### The execute phase -/

theorem operand_of_access (hi : i = .lda a ∨ i = .add a ∨ i = .sub a ∨ i = .sta a) : i.operand = a := by
  rcases hi with rfl | rfl | rfl | rfl <;> rfl

/-- An execute phase that faults does nothing but raise `OOB_DATA` at its operand or `INVALID_OPCODE` at its own address
(60_exceptions.md R211, R212). -/
theorem ExecEffect.eq_raiseFault (h : ExecEffect s i t) (hs : s.status.faulted = false) (ht : t.status.faulted = true) :
    (∃ a, (i = .lda a ∨ i = .add a ∨ i = .sub a ∨ i = .sta a) ∧ s.cfg.capacity ≤ a ∧ t = s.raiseFault .oobData a) ∨
      ((i = .invalidOp6 ∨ i = .invalidOp7) ∧ s.cfg.policy = .strict ∧
        t = s.raiseFault .invalidOpcode (s.pc - 1).toNat) := by
  cases h
  case outOfRange a ha hi => exact .inl ⟨a, hi, ha, rfl⟩
  case trap hp hi => exact .inr ⟨hi, hp, rfl⟩
  all_goals exact absurd (hs.symm.trans ht) Bool.false_ne_true

/-- Without a fault an execute phase leaves the fault's record alone. -/
theorem ExecEffect.record_kept (h : ExecEffect s i t) (ht : t.status.faulted = false) :
    t.status.cause = s.status.cause ∧ t.faultAddr = s.faultAddr := by
  cases h
  case outOfRange | trap => cases ht
  all_goals exact ⟨rfl, rfl⟩

/-! ### The fetch included -/

/-- An instruction that faults raises `OOB_FETCH` in place of the fetch, or one other fault on top of the fetch's writes
(60_exceptions.md R214). -/
theorem stepAt_eq_raiseFault (hr : s.ready = true) (hp : s.phase = .fetch) (h : stepAt s = .next t)
    (ht : t.status.faulted = true) :
    t = s.dropPulse.raiseFault .oobFetch s.pc.toNat ∨
      ∃ c x, c ≠ .oobFetch ∧ t = s.afterFetch.raiseFault c x := by
  obtain ⟨hrst, -, hl, hwait⟩ := State.ready_iff.1 hr
  have hs : s.status.faulted = false := (State.live_iff.1 hl).2
  rcases stepWith_boundary_cases hp h with ⟨hreset, -⟩ | ⟨hw, -⟩ | ⟨-, e⟩ | ⟨-, u, hu, rfl⟩
  · exact absurd (hrst.symm.trans hreset) Bool.false_ne_true
  · exact absurd (hwait.symm.trans hw) Bool.false_ne_true
  · exact .inl e
  · have hback (c : Cause) (x : Nat) :
        { ({ s.afterFetch with phase := .execute } : State g).raiseFault c x with phase := .fetch } =
          s.afterFetch.raiseFault c x := by
      simp [State.raiseFault, State.afterFetch, hp]
    rcases (execAt_effect hu).eq_raiseFault hs ht with ⟨a, -, -, rfl⟩ | ⟨-, -, rfl⟩
    · exact .inr ⟨.oobData, a, nofun, hback _ _⟩
    · exact .inr ⟨.invalidOpcode, _, nofun, hback _ _⟩

end Sys2Proof.Machine

namespace Sys2Proof.Proofs

open Sys2Proof.Machine

/-- Settles O38: the fetch's fault is raised on `s` itself, every other one on `s` after the fetch. -/
theorem faultsArePrecise : Obligations.FaultsArePrecise := by
  intro s t hr hp h ht
  rw [← stepAt_eq_step] at h
  rcases stepAt_eq_raiseFault hr hp h ht with rfl | ⟨c, x, hc, rfl⟩
  · simp [State.raiseFault, State.dropPulse]
  · simp [State.raiseFault, State.afterFetch, hc]

/-- Settles O39: the two groups of instructions raise their faults, and only they do. -/
theorem whichInstructionsFault : Obligations.WhichInstructionsFault := by
  intro i s t hs h
  rw [← execAt_default] at h
  have heff := execAt_effect h
  have hdata : i = .lda i.operand ∨ i = .add i.operand ∨ i = .sub i.operand ∨ i = .sta i.operand →
      s.cfg.capacity ≤ i.operand → t = s.raiseFault .oobData i.operand := fun hi ha =>
    Host.Outcome.next.inj (h.symm.trans (execAt_of_outOfRange hi ha))
  have hop : i = .invalidOp6 ∨ i = .invalidOp7 → s.cfg.policy = .strict →
      t = { s with
        status := { s.status with faulted := true, cause := .invalidOpcode }
        faultAddr := s.pc - 1 } := fun hi hp =>
    Host.Outcome.next.inj (h.symm.trans (execAt_invalid_of_strict hi hp))
  refine ⟨⟨fun ht => ?_, ?_⟩, fun hi ha => ?_, fun hi hp => ?_, heff.record_kept⟩
  · rcases heff.eq_raiseFault hs ht with ⟨a, hi, ha, -⟩ | ⟨hi, hp, -⟩
    · rw [operand_of_access hi]
      exact .inl ⟨hi, ha⟩
    · exact .inr ⟨hi, hp⟩
  · rintro (⟨hi, ha⟩ | ⟨hi, hp⟩)
    · rw [hdata hi ha, State.raiseFault_status]
    · rw [hop hi hp]
  · rw [hdata hi ha]
    exact ⟨rfl, rfl⟩
  · rw [hop hi hp]
    exact ⟨rfl, rfl⟩

end Sys2Proof.Proofs

/-! The statements of the family 70_reset_and_hazards.md: what the host's actions answer and keep, what a reset, `run = 0`
and a `step` pulse do, and what the loader and the boot leave in memory. -/

namespace Sys2Proof.Machine

variable {g : Geometry} {ex : Instr → State g → Result g} {s t : State g} {i : Instr}

/-! ### Several writes -/

/-- The words of a list of cells written in order (70_reset_and_hazards.md R247). -/
def Memory.writeAll (m : Memory g) (data : List (Nat × Word g)) : Memory g :=
  data.foldl (fun m c => Memory.write m c.1 c.2) m

theorem Memory.writeAll_concat (m : Memory g) (data : List (Nat × Word g)) (c : Nat × Word g) :
    m.writeAll (data ++ [c]) = Memory.write (m.writeAll data) c.1 c.2 :=
  List.foldl_concat ..

theorem Memory.writeAll_wf {n : Nat} {m : Memory g} {data : List (Nat × Word g)} (h : Memory.wf n m = true)
    (hd : ∀ c ∈ data, c.1 < n) : Memory.wf n (m.writeAll data) = true := by
  induction data generalizing m with
  | nil => exact h
  | cons c data ih =>
    obtain ⟨hc, hd⟩ := List.forall_mem_cons.1 hd
    exact ih (Memory.write_wf h hc) hd

/-- The later write of a cell wins (R247). -/
theorem Memory.read_writeAll {n : Nat} {m : Memory g} {data : List (Nat × Word g)} (h : Memory.wf n m = true)
    (hd : ∀ c ∈ data, c.1 < n) (a : Nat) :
    Memory.read (m.writeAll data) a =
      ((data.reverse.find? fun c => c.1 = a).map fun c => c.2).getD (Memory.read m a) := by
  induction data using List.reverseRecOn with
  | nil => rfl
  | append_singleton data c ih =>
    have hd' : ∀ c ∈ data, c.1 < n := fun x hx => hd x (List.mem_append_left _ hx)
    rw [Memory.writeAll_concat, List.reverse_concat]
    by_cases hca : c.1 = a
    · subst hca
      rw [Memory.read_write_same (Memory.writeAll_wf h hd')]
      simp
    · rw [Memory.read_write_other (Ne.symm hca), ih hd', List.find?_cons_of_neg (by simpa using hca)]

/-- The loader's stores put word `j` into the `j`th cell from their first one on (R246). -/
theorem storeFrom_read {n k : Nat} {ws : List (Word g)} {m : Memory g} (h : Memory.wf n m = true)
    (hk : k + ws.length ≤ n) (j : Nat) :
    Memory.read (storeFrom m k ws) (k + j) = (ws[j]?).getD (Memory.read m (k + j)) := by
  induction ws generalizing k m j with
  | nil => rfl
  | cons w ws ih =>
    simp only [List.length_cons] at hk
    rw [storeFrom]
    cases j with
    | zero => exact (storeFrom_read_below (by omega)).trans (Memory.read_write_same h)
    | succ j =>
      have hw : Memory.wf n (Memory.write m k w) = true := Memory.write_wf h (by omega)
      have hother : Memory.read (Memory.write m k w) (k + 1 + j) = Memory.read m (k + 1 + j) :=
        Memory.read_write_other (by omega)
      have hrest := ih (k := k + 1) hw (by omega) j
      rwa [hother, Nat.add_right_comm] at hrest

/-- The loader puts word `a` into cell `a` (R246). -/
theorem storeFrom_zero_read {n : Nat} {ws : List (Word g)} {m : Memory g} (h : Memory.wf n m = true)
    (hl : ws.length ≤ n) (a : Nat) : Memory.read (storeFrom m 0 ws) a = (ws[a]?).getD (Memory.read m a) := by
  have hread := storeFrom_read (k := 0) h (by simpa using hl) a
  rwa [Nat.zero_add] at hread

/-! ### What the host's actions answer -/

theorem State.hostWrite_eq_ok_iff {a : Nat} {v : Word g} :
    s.hostWrite a v = .ok t ↔ s.idle = true ∧ a < s.cfg.capacity ∧ t = { s with mem := Memory.write s.mem a v } := by
  cases hi : s.idle with
  | false => simp [State.hostWrite, hi]
  | true =>
    rcases Nat.lt_or_ge a s.cfg.capacity with ha | ha
    · simp [State.hostWrite, hi, ha, eq_comm]
    · simp [State.hostWrite, hi, ha, Nat.not_lt.2 ha]

theorem State.writeData_cons_eq_ok_iff {a : Nat} {v : Word g} {data : List (Nat × Word g)} :
    s.writeData ((a, v) :: data) = .ok t ↔ ∃ u, s.hostWrite a v = .ok u ∧ u.writeData data = .ok t := by
  rw [State.writeData]
  cases s.hostWrite a v <;> simp

/-- Data words inside the memory of an idle core are all written. -/
theorem State.writeData_of_lt {data : List (Nat × Word g)} (hi : s.idle = true)
    (hd : ∀ c ∈ data, c.1 < s.cfg.capacity) :
    s.writeData data = .ok { s with mem := Memory.writeAll s.mem data } := by
  induction data generalizing s with
  | nil => rfl
  | cons c data ih =>
    obtain ⟨hc, hd⟩ := List.forall_mem_cons.1 hd
    exact State.writeData_cons_eq_ok_iff.2
      ⟨_, State.hostWrite_eq_ok_iff.2 ⟨hi, hc, rfl⟩, ih (s := { s with mem := Memory.write s.mem c.1 c.2 }) hi hd⟩

theorem State.loadProgram_eq_ok_iff {ws : List (Word g)} :
    s.loadProgram ws = .ok t ↔
      s.idle = true ∧ ws.length ≤ s.cfg.capacity ∧ t = { s with mem := storeFrom s.mem 0 ws } := by
  cases hi : s.idle with
  | false => simp [State.loadProgram, hi]
  | true =>
    rcases Nat.lt_or_ge s.cfg.capacity ws.length with hl | hl
    · simp [State.loadProgram, hi, Nat.not_le.2 hl]
    · simp [State.loadProgram, hi, hl, eq_comm]

/-- The steps of a boot, one after another (R248). -/
theorem State.boot_eq_ok_iff {program : List (Word g)} {data : List (Nat × Word g)} :
    s.boot program data = .ok t ↔
      ∃ u v, (s.setRst true).dropPulse.coreReset.loadProgram program = .ok u ∧ u.writeData data = .ok v ∧
        (v.setRst false).setRun true = t := by
  rw [State.boot]
  cases (s.setRst true).dropPulse.coreReset.loadProgram program with
  | error e => simp
  | ok u => cases hv : u.writeData data <;> simp [hv]

/-- The launch state (R245): all of the image is in memory, and the core is let run from a reset. -/
theorem State.boot_of_fits {program : List (Word g)} {data : List (Nat × Word g)}
    (hl : program.length ≤ s.cfg.capacity) (hd : ∀ c ∈ data, c.1 < s.cfg.capacity) :
    s.boot program data = .ok { s.coreReset with
      mem := Memory.writeAll (storeFrom s.mem 0 program) data
      pins := { rst := false, run := true, step := false } } := by
  have hload : (s.setRst true).dropPulse.coreReset.loadProgram program =
      .ok { (s.setRst true).dropPulse.coreReset with mem := storeFrom s.mem 0 program } :=
    State.loadProgram_eq_ok_iff.2 ⟨rfl, hl, rfl⟩
  exact State.boot_eq_ok_iff.2 ⟨_, _, hload, State.writeData_of_lt rfl hd, rfl⟩

/-! ### The invariant -/

namespace State.Inv

theorem setPins (h : s.Inv) (p : Pins) : ({ s with pins := p } : State g).Inv := { h with }

theorem setMem (h : s.Inv) {m : Memory g} (hm : Memory.wf s.cfg.capacity m = true) :
    ({ s with mem := m } : State g).Inv :=
  { h with mem := hm }

theorem hostWrite {a : Nat} {v : Word g} (h : s.Inv) (hw : s.hostWrite a v = .ok t) : t.Inv := by
  obtain ⟨-, ha, rfl⟩ := State.hostWrite_eq_ok_iff.1 hw
  exact h.setMem (Memory.write_wf h.mem ha)

theorem writeData {data : List (Nat × Word g)} (h : s.Inv) (hw : s.writeData data = .ok t) : t.Inv := by
  induction data generalizing s with
  | nil => cases hw; exact h
  | cons c data ih =>
    obtain ⟨u, hu, hrest⟩ := State.writeData_cons_eq_ok_iff.1 hw
    exact ih (h.hostWrite hu) hrest

theorem loadProgram {ws : List (Word g)} (h : s.Inv) (hl : s.loadProgram ws = .ok t) : t.Inv := by
  obtain ⟨-, hlen, rfl⟩ := State.loadProgram_eq_ok_iff.1 hl
  exact h.setMem (storeFrom_wf h.mem (by simpa using hlen))

/-- A boot establishes the invariant: its reset does, and its loads keep it (70_reset_and_hazards.md R248). -/
theorem boot {program : List (Word g)} {data : List (Nat × Word g)} (hp : s.cfg.Legal g)
    (hm : Memory.wf s.cfg.capacity s.mem = true) (hb : s.boot program data = .ok t) : t.Inv := by
  obtain ⟨u, v, hu, hv, rfl⟩ := State.boot_eq_ok_iff.1 hb
  have hreset : (s.setRst true).dropPulse.coreReset.Inv := .coreReset hp hm
  exact ((hreset.loadProgram hu).writeData hv).setPins _

end State.Inv

/-! ### Reset and waiting -/

theorem Status.clear_bits : Status.clear.bits = 0 := by decide

theorem stepWith_of_rst (h : s.pins.rst = true) : stepWith ex s = .next s.dropPulse.coreReset :=
  if_pos h

theorem edgeWith_of_rst (h : s.pins.rst = true) : edgeWith ex s = .next s.dropPulse.coreReset :=
  if_pos h

/-- With `rst = 0` a clock edge holds a halted or faulted core halted or faulted (R240). -/
theorem edgeWith_not_live (hl : s.live = false) (hr : s.pins.rst = false) (h : edgeWith ex s = .next t) :
    t.live = false := by
  cases hw : s.wasReset with
  | false => simp [edgeWith, hr, hw] at h
  | true =>
    cases (edgeWith_ended (State.ended_iff.2 ⟨hr, hw, hl⟩)).symm.trans h
    exact hl

theorem stepWith_of_waiting (hr : s.pins.rst = false) (hw : s.wasReset = true) (hl : s.live = true)
    (hwait : s.waiting = true) : stepWith ex s = .next s := by
  simp [stepWith, hr, hw, hl, hwait]

theorem edgeWith_of_waiting (hr : s.pins.rst = false) (hw : s.wasReset = true) (hl : s.live = true)
    (hwait : s.waiting = true) : edgeWith ex s = .next s := by
  simp [edgeWith, hr, hw, hl, hwait]

theorem State.waiting_iff :
    s.waiting = true ↔ s.phase = .fetch ∧ s.pins.run = false ∧ s.pins.step = false := by
  simp [State.waiting, and_assoc]

theorem State.not_ready_of_waiting (h : s.waiting = true) : s.ready = false := by
  simp [State.ready, h]

/-- Inside an instruction its rest is the execute phase: the decode writes nothing but `PHASE` (40_cycle.md R133). -/
theorem completeInstr_inside (hp : s.phase ≠ .fetch) :
    completeInstr ex s = executePhase ex { s with phase := .execute } := by
  obtain ⟨hf, -⟩ | ⟨hf, -⟩ | ⟨-, e⟩ | ⟨he, e⟩ := completeInstr_cases ex s
  · exact absurd hf hp
  · exact absurd hf hp
  · exact e
  · rw [e, ← he]

/-! ### A `step` pulse -/

@[simp] theorem State.pulseStep_live (s : State g) : s.pulseStep.live = s.live := rfl
@[simp] theorem State.pulseStep_stopReason (s : State g) : s.pulseStep.stopReason = s.stopReason := rfl
@[simp] theorem State.pulseStep_dropPulse (s : State g) : s.pulseStep.dropPulse = s.dropPulse := rfl

@[simp] theorem State.pulseStep_waiting (s : State g) : s.pulseStep.waiting = false := by
  simp [State.waiting]

/-- A pulse has an effect on a waiting core only (70_reset_and_hazards.md R251). -/
theorem stepWith_pulseStep (h : s.live = false ∨ s.waiting = false) : stepWith ex s.pulseStep = stepWith ex s := by
  rcases h with h | h <;> simp [stepWith, h]

theorem edgeWith_pulseStep (h : s.live = false ∨ s.waiting = false) : edgeWith ex s.pulseStep = edgeWith ex s := by
  rcases h with h | h <;> simp [edgeWith, h]

/-! ### Nothing in an instruction reads the pins -/

/-- The effect of an instruction is the answer of its execute phase. -/
theorem execAt_of_effect (h : ExecEffect s i t) : execAt i s = .next t := by
  cases h with
  | lda ha => exact execAt_lda_of_lt ha
  | add ha => exact execAt_add_of_lt ha
  | sub ha => exact execAt_sub_of_lt ha
  | sta ha => exact execAt_sta_of_lt ha
  | jump hz => exact execAt_jnz_of_ne_zero hz
  | pass hz => exact execAt_jnz_of_eq_zero hz
  | hlt => rfl
  | report hi hp => exact execAt_invalid_of_lenient hi hp
  | trap hi hp => exact (execAt_invalid hi).trans (by simp [State.invalidOpcode, hp])
  | outOfRange hi ha => exact execAt_of_outOfRange hi ha

theorem ExecEffect.setRun (h : ExecEffect s i t) (b : Bool) : ExecEffect (s.setRun b) i (t.setRun b) := by
  cases h with
  | lda ha => exact .lda (s := s.setRun b) ha
  | add ha => exact .add (s := s.setRun b) ha
  | sub ha => exact .sub (s := s.setRun b) ha
  | sta ha => exact .sta (s := s.setRun b) ha
  | jump hz => exact .jump (s := s.setRun b) hz
  | pass hz => exact .pass (s := s.setRun b) hz
  | hlt => exact .hlt (s := s.setRun b)
  | report hi hp => exact .report (s := s.setRun b) hi hp
  | trap hi hp => exact .trap (s := s.setRun b) hi hp
  | outOfRange hi ha => exact .outOfRange (s := s.setRun b) hi ha

theorem ExecEffect.wasReset_eq (h : ExecEffect s i t) : t.wasReset = s.wasReset := by
  cases h <;> rfl

theorem executePhase_setRun (h : executePhase execAt s = .next t) (b : Bool) :
    executePhase execAt (s.setRun b) = .next (t.setRun b) := by
  obtain ⟨u, hu, rfl⟩ := executePhase_next h
  exact executePhase_of_next (s := s.setRun b) (execAt_of_effect ((execAt_effect hu).setRun b))

theorem State.ready_setRun_true (h : s.ready = true) : (s.setRun true).ready = true := by
  obtain ⟨hr, hw, hl, -⟩ := State.ready_iff.1 h
  exact State.ready_iff.2 ⟨hr, hw, hl, by simp [State.waiting]⟩

/-- With `run = 1` a ready core at a boundary steps to the state it steps to by a pulse, but for `run`. -/
theorem stepAt_setRun_true (hr : s.ready = true) (hp : s.phase = .fetch) (h : stepAt s = .next t) :
    stepAt (s.setRun true) = .next (t.setRun true) := by
  have hr' := State.ready_setRun_true hr
  rcases Nat.lt_or_ge s.pc.toNat s.cfg.capacity with hN | hN
  · have hf : s.fetches = true := State.fetches_iff.2 ⟨hr, hp, hN⟩
    have hf' : (s.setRun true).fetches = true := State.fetches_iff.2 ⟨hr', hp, hN⟩
    exact (stepWith_of_fetches hf').trans (executePhase_setRun ((stepWith_of_fetches hf).symm.trans h) true)
  · cases (stepWith_of_fetch_fault hr hp hN).symm.trans h
    exact stepWith_of_fetch_fault (s := s.setRun true) hr' hp hN

/-- After a single step a core that has not stopped waits (R251). -/
theorem stepAt_single_waits (hr : s.ready = true) (hp : s.phase = .fetch) (hrun : s.pins.run = false)
    (h : stepAt s = .next t) (hl : t.live = true) :
    t.pins.rst = false ∧ t.wasReset = true ∧ t.waiting = true := by
  obtain ⟨hrst, hw, -, hwait⟩ := State.ready_iff.1 hr
  rcases stepWith_boundary_cases hp h with ⟨hreset, -⟩ | ⟨hwait', -⟩ | ⟨-, rfl⟩ | ⟨-, u, hu, rfl⟩
  · exact absurd (hrst.symm.trans hreset) Bool.false_ne_true
  · exact absurd (hwait.symm.trans hwait') Bool.false_ne_true
  · simp [State.live] at hl
  · have hpins : u.pins = { s.pins with step := false } := (execAt_effect hu).pins_eq
    have hwas : u.wasReset = s.wasReset := (execAt_effect hu).wasReset_eq
    exact ⟨by simp [hpins, hrst], hwas.trans hw, State.waiting_iff.2 ⟨rfl, by simp [hpins, hrun], by simp [hpins]⟩⟩

end Sys2Proof.Machine

namespace Sys2Proof.Proofs

open Sys2Proof.Machine

/-- Settles O50: the host's actions write pins or cells inside the memory, and a ready core is not idle. -/
theorem hostActionsKeepTheInvariant : Obligations.HostActionsKeepTheInvariant := by
  intro g s t
  refine ⟨fun h => ⟨fun b => ⟨h.setPins _, h.setPins _⟩, h.setPins _, fun _ _ => h.hostWrite, fun _ => h.loadProgram,
    fun _ => h.writeData⟩, fun hp hm _ _ => .boot hp hm, fun hr => ?_⟩
  have hi := State.not_idle_of_ready hr
  exact ⟨fun _ => if_neg hi, fun _ _ => if_neg hi, fun _ => if_neg hi⟩

/-- Settles O51: both the step and the edge reset first, and an edge without reset holds a stopped core. -/
theorem resetClearsTheCore : Obligations.ResetClearsTheCore := by
  refine ⟨fun s hr => ⟨?_, _, edgeWith_of_rst hr, stepWith_of_rst hr, rfl, rfl,
      Status.clear_bits, rfl, rfl, rfl, rfl⟩, fun s t hl he ht => ?_⟩
  · exact State.portDrive_of_not_ready (by simp [State.ready, hr])
  · by_contra hr
    have hstopped := edgeWith_not_live hl (Bool.eq_false_iff.2 hr) he
    exact absurd (hstopped.symm.trans ht) Bool.false_ne_true

/-- Settles O52: at a boundary the core waits, and inside an instruction it is ready and completes it. -/
theorem runLowWaitsAtTheBoundary : Obligations.RunLowWaitsAtTheBoundary := by
  intro s hrst hw hl hrun
  refine ⟨fun hp hstep => ?_, fun hp => ?_⟩
  · have hwait : s.waiting = true := State.waiting_iff.2 ⟨hp, hrun, hstep⟩
    exact ⟨stepWith_of_waiting hrst hw hl hwait, edgeWith_of_waiting hrst hw hl hwait,
      State.portDrive_of_not_ready (State.not_ready_of_waiting hwait)⟩
  · have hr : s.ready = true := State.ready_iff.2 ⟨hrst, hw, hl, by simp [State.waiting, hp]⟩
    rw [← execAt_default]
    obtain ⟨t, ht⟩ := exists_execAt_next s.decoded { s.dropPulse with phase := .execute }
    refine ⟨t, _, ht, rfl, ?_⟩
    calc step s = stepAt s := (stepAt_eq_step s).symm
      _ = completeInstr execAt s.dropPulse := stepWith_of_ready hr
      _ = executePhase execAt { s.dropPulse with phase := .execute } := completeInstr_inside hp
      _ = .next { t with phase := .fetch } := executePhase_of_next ht

/-- Settles O53: an instruction reads no pin and ends the pulse, and only a waiting core answers to one. -/
theorem singleStepRunsOneInstruction : Obligations.SingleStepRunsOneInstruction := by
  refine ⟨fun s hr hp hrun => ?_, fun s h => ?_⟩
  · obtain ⟨-, hw, hl, -⟩ := State.ready_iff.1 hr
    obtain ⟨t, ht⟩ := exists_stepAt_next (.inr ⟨hw, hl⟩)
    rw [← stepAt_eq_step, ← stepAt_eq_step]
    refine ⟨t, ht, stepAt_setRun_true hr hp ht, fun hlive => ?_⟩
    obtain ⟨hrst, hwas, hwait⟩ := stepAt_single_waits hr hp hrun ht hlive
    exact ⟨hwait, stepWith_of_waiting hrst hwas hlive hwait⟩
  · have hcore : s.live = false ∨ s.waiting = false := by
      rcases h with h | h | h <;> simp [State.waiting, h]
    exact ⟨stepWith_pulseStep hcore, edgeWith_pulseStep hcore⟩

/-- Settles O54: the load is the stores from cell 0 on, or its bound fails. -/
theorem loaderPlacesTheProgram : Obligations.LoaderPlacesTheProgram := by
  intro g s ws hm hi
  refine ⟨fun hlen => ⟨_, State.loadProgram_eq_ok_iff.2 ⟨hi, hlen, rfl⟩, storeFrom_zero_read hm hlen⟩, fun hlen => ?_⟩
  simp [State.loadProgram, hi, Nat.not_le.2 hlen]

/-- Settles O55: the core held in reset takes every word, and the data words are written over the program. -/
theorem bootGivesTheLaunchState : Obligations.BootGivesTheLaunchState := by
  intro g s program data hm hlen hd
  have hnew : Memory.wf s.cfg.capacity s.mem = true := hm ▸ Memory.nil_wf _
  have himage : Memory.wf s.cfg.capacity (storeFrom s.mem 0 program) = true := storeFrom_wf hnew (by simpa using hlen)
  refine ⟨_, State.boot_of_fits hlen hd, rfl, rfl, Status.clear_bits, rfl, rfl, ?_, fun a => ?_⟩
  · exact State.ready_iff.2 ⟨rfl, rfl, rfl, by simp [State.waiting]⟩
  · have hcell : Memory.read s.mem a = 0 := hm ▸ rfl
    rw [Memory.read_writeAll himage hd, storeFrom_zero_read hnew hlen, hcell]

end Sys2Proof.Proofs
